-- ==== Sys2Proof/Word.lean ====
section
/-! DEFINITION. The words of the machine: bytes, 32-bit words, host addresses, the RGB triple (spec/00_scope.md R8, R11), and
the names of a host program (spec/30_encoding.md R71). -/

namespace Sys2Proof

/-- A byte, and one colour channel: unsigned, 8 bits (R8, CHANNEL_BITS). -/
abbrev Byte := BitVec 8

/-- A 32-bit word: a register's value, a command word, the data of a transaction (R13, R20, R63). -/
abbrev Word := BitVec 32

/-- A 16-bit host byte address (R41). -/
abbrev Addr := BitVec 16

/-- A light level y, 0 (brightest) to 63 (darkest), 6 bits (R8, R9). -/
abbrev Level := BitVec 6

/-- A palette index x, 8 bits (R8, R9). -/
abbrev Index := BitVec 8

/-- RGBTriple: three unsigned 8-bit channels (spec/00_scope.md glossary; R31). No channel outside 0-255 can be
written down (93 U1). -/
structure Triple where
  r : Byte
  g : Byte
  b : Byte
  deriving DecidableEq, Repr

/-- The triple whose channels are all 0. -/
def Triple.black : Triple := ⟨0#8, 0#8, 0#8⟩

/-- An identifier of a host program, as its letters (R71). -/
abbrev Ident := List Char

/-- What a host program's reads bind (R71, R72): a name of its own, or the word `w_k` that READCMAP reads for an image. -/
inductive Name where
  | ident (id : Ident)
  | imageWord (image : Ident) (k : Nat)
  deriving DecidableEq, Repr

end Sys2Proof
end

