-- ==== Sys2Proof/Config.lean ====
section
/-! DEFINITION. What is fixed for the machine and does not change as it runs: the parameters the source fixes
(spec/00_scope.md R8), the address map's constants (spec/20_memory.md R41), the open parameters of R10, and the free
values: the bytes of spec/93_implementation_defined.md U4, U6 and U7, and two values of host programs (log 23). -/

namespace Sys2Proof.Config

/-- NUM_COLORS (R8). -/
abbrev numColors : Nat := 256
/-- NUM_LEVELS (R8). -/
abbrev numLevels : Nat := 64
/-- FB_BASE = 256 - NUM_FULLBRIGHT (R8): the first fullbright index. -/
abbrev fbBase : Nat := 224
/-- PAL_BYTES (R8). -/
abbrev palBytes : Nat := 768
/-- CMAP_BYTES = 64 * 256 (R8). -/
abbrev cmapBytes : Nat := 16384
/-- DIM_BIAS (R8). -/
abbrev dimBias : Nat := 16
/-- DIM_SHIFT (R8). -/
abbrev dimShift : Nat := 5

/-- First address of the PAL region; CMAP lies at 0 below it (R41). -/
abbrev palBase : Nat := 0x4000
/-- First address after the PAL region (R41). -/
abbrev palEnd : Nat := 0x4300
/-- First address of the REG region (R41). -/
abbrev regBase : Nat := 0x8000
/-- First address after the REG region (R41). -/
abbrev regEnd : Nat := 0x8040

/-- The constant the ID register reads (R24). -/
abbrev idWord : Word := 0x434D0001#32

/-- FREE VALUE (log 5). The byte a host read returns where the spec says "any value" (R40, R53; 93 U4, U6, U7),
for the n-th byte drawn. It has no body: nothing can be proved of it. -/
opaque freeByte : Nat → Byte

/-- FREE VALUE (log 23). What a read at an address outside the block's 16 bits returns, for the n-th draw. -/
opaque freeWord : Nat → Word

/-- FREE VALUE (log 23). The value of a name that no read has bound, after so many draws. -/
opaque unboundName : Nat → Ident → Word

/-- The kinds of reset input that `RESET_KIND` leaves open (R10, R127). -/
inductive ResetKind where
  | synchronous
  | asynchronous
  deriving DecidableEq, Repr, Inhabited

/-- OPEN (log 17): one less than `LAT_<op>` for the op's code (R10: "finite and at least 1"). -/
opaque latencyLessOne : BitVec 4 → Nat

/-- `LAT_<op>` in clock cycles, at least 1 (R10). No rule depends on it and nothing in the model reads it. -/
def latency (op : BitVec 4) : Nat := latencyLessOne op + 1

/-- OPEN (log 17): `CLOCK`, the clock frequency (R10). Nothing reads it. -/
opaque clock : Nat

/-- OPEN (log 17): `RESET_KIND` (R10, R127). Nothing reads it. -/
opaque resetKind : ResetKind

/-- OPEN (log 17): a number naming the `HOST_BUS` handshake the platform uses (R10). Nothing reads it. -/
opaque hostBus : Nat

/-- OPEN (log 17): the base at which the platform places the block's 16-bit window (R123; 93 U10). -/
opaque platformBase : Nat

/-- The platform's physical address of the block's offset `a` (R123). The model itself works in offsets. -/
def platformAddress (a : Addr) : Nat := platformBase + a.toNat

end Sys2Proof.Config
end

