-- ==== Sys2Proof/Syntax.lean ====
section
/-! DEFINITION. The commands of CMGEN-CMD version 1, one constructor per row of spec/opcode_table.json
(spec/30_encoding.md R67). -/

namespace Sys2Proof

/-- A decoded command (R68). LEVEL and INDEX are the word's own fields, zero-extended, neither scaled nor shifted (R65);
the colour operand of DIST, MATCH and DIM is no part of the word. -/
inductive Instr where
  /-- NOP (R78). -/
  | nop
  /-- DIST idx (R87). -/
  | dist (idx : Index)
  /-- MATCH (R88). -/
  | matchTarget
  /-- DIM lvl (R96). -/
  | dim (lvl : Level)
  /-- DIMP lvl, idx (R97). -/
  | dimp (lvl : Level) (idx : Index)
  /-- QUANT lvl, idx (R102). -/
  | quant (lvl : Level) (idx : Index)
  /-- GEN (R104). -/
  | gen
  deriving DecidableEq, Repr

end Sys2Proof
end

