-- ==== Sys2Proof/WellFormed.lean ====
section
/-! DEFINITION. What is well formed: an instruction (every operand in its field's range, spec/30_encoding.md R65), and
a statement of a host program as its writer wrote it, with the range checks the assembler makes (R70, R72) and the
host's own check of the palette image's size (spec/70_reset_and_hazards.md R130). -/

namespace Sys2Proof

/-- `lvl` must be 0-63 (R70). -/
def levelOk (n : Nat) : Bool := decide (n < Config.numLevels)

/-- `idx` must be 0-255 (R70). -/
def indexOk (n : Nat) : Bool := decide (n < Config.numColors)

/-- A channel of SETRGB must be 0-255 (R72). -/
def channelOk (n : Nat) : Bool := decide (n < 256)

/-- A host address has 16 bits (R41). -/
def addrOk (n : Nat) : Bool := decide (n < 65536)

/-- The data of a transaction has at most 32 bits (R47). -/
def dataOk (n : Nat) : Bool := decide (n < 4294967296)

/-- The operands of an instruction lie in the ranges of their fields. The fields' types already say so (R65: "no level
value is out of range"), so every `Instr` is well formed. -/
def Instr.wf : Instr → Bool
  | .nop => true
  | .dist idx => indexOk idx.toNat
  | .matchTarget => true
  | .dim lvl => levelOk lvl.toNat
  | .dimp lvl idx => levelOk lvl.toNat && indexOk idx.toNat
  | .quant lvl idx => levelOk lvl.toNat && indexOk idx.toNat
  | .gen => true

/-- An operand that may be a value read earlier: an integer, or the name a read bound (R71). -/
inductive Arg where
  | num (n : Nat)
  | name (id : Ident)
  deriving DecidableEq, Repr

/-- The check of an operand: an integer must be in range; a name stands for a 32-bit word. -/
def Arg.ok (range : Nat → Bool) : Arg → Bool
  | .num n => range n
  | .name _ => true

/-- The names an operand uses. -/
def Arg.uses : Arg → List Ident
  | .num _ => []
  | .name id => [id]

/-- A statement of a host program as its writer wrote it (R70-R72). The operands of commands and of SETRGB are integers, those
of the transactions and of SETIE integers or names (log 23). -/
inductive Stmt where
  | nop
  | dist (idx : Nat)
  | matchTarget
  | dim (lvl : Nat)
  | dimp (lvl idx : Nat)
  | quant (lvl idx : Nat)
  | gen
  | wr32 (addr value : Arg)
  | wr8 (addr value : Arg)
  | rd32 (addr : Arg) (name : Option Ident)
  | rd8 (addr : Arg) (name : Option Ident)
  | setrgb (r g b : Nat)
  | setie (m : Arg)
  | clrst
  | wait
  | loadpal (image : List Byte)
  | readcmap (image : Ident)
  deriving DecidableEq, Repr

/-- The checks of the assembler (R70, R72) and of the host (R130: exactly 768 bytes). -/
def Stmt.wf : Stmt → Bool
  | .nop | .matchTarget | .gen | .clrst | .wait | .readcmap _ => true
  | .dist idx => indexOk idx
  | .dim lvl => levelOk lvl
  | .dimp lvl idx => levelOk lvl && indexOk idx
  | .quant lvl idx => levelOk lvl && indexOk idx
  | .wr32 a v => a.ok addrOk && v.ok dataOk
  | .wr8 a v => a.ok addrOk && v.ok dataOk
  | .rd32 a _ => a.ok addrOk
  | .rd8 a _ => a.ok addrOk
  | .setrgb r g b => channelOk r && channelOk g && channelOk b
  | .setie m => m.ok dataOk
  | .loadpal image => decide (image.length = Config.palBytes)

/-- The names a statement uses (R71). -/
def Stmt.uses : Stmt → List Ident
  | .wr32 a v => a.uses ++ v.uses
  | .wr8 a v => a.uses ++ v.uses
  | .rd32 a _ => a.uses
  | .rd8 a _ => a.uses
  | .setie m => m.uses
  | .nop | .dist _ | .matchTarget | .dim _ | .dimp _ _ | .quant _ _ | .gen | .setrgb _ _ _ | .clrst | .wait | .loadpal _
  | .readcmap _ => []

/-- The name a statement binds for the later ones (R71). -/
def Stmt.binds : Stmt → List Ident
  | .rd32 _ name => name.toList
  | .rd8 _ name => name.toList
  | .nop | .dist _ | .matchTarget | .dim _ | .dimp _ _ | .quant _ _ | .gen | .wr32 _ _ | .wr8 _ _ | .setrgb _ _ _ | .setie _
  | .clrst | .wait | .loadpal _ | .readcmap _ => []

/-- A program is well formed when each statement is, and uses only names that earlier statements bind (R71: "later"). -/
def programWf (bound : List Ident) : List Stmt → Bool
  | [] => true
  | st :: rest => st.wf && st.uses.all bound.contains && programWf (st.binds ++ bound) rest

end Sys2Proof
end

