-- ==== Sys2Proof/Decode.lean ====
section
/-! DEFINITION. The decoder and the encoder of command words (spec/30_encoding.md R63-R69), the opcode map as data (R67),
and the host's way in, `decodeTableWord`. -/

namespace Sys2Proof

/-! ### Fields of the command word (R64) -/

/-- OP, bits 3:0. -/
def opField (w : Word) : BitVec 4 := w.extractLsb' 0 4
/-- RSV0, bits 7:4. -/
def rsv0Field (w : Word) : BitVec 4 := w.extractLsb' 4 4
/-- LEVEL, bits 13:8. -/
def levelField (w : Word) : Level := w.extractLsb' 8 6
/-- RSV1, bits 15:14. -/
def rsv1Field (w : Word) : BitVec 2 := w.extractLsb' 14 2
/-- INDEX, bits 23:16. -/
def indexField (w : Word) : Index := w.extractLsb' 16 8
/-- RSV2, bits 31:24. -/
def rsv2Field (w : Word) : BitVec 8 := w.extractLsb' 24 8

/-! ### Decode (R68) -/

/-- Why a word is no command (R69): a reserved bit set, an unused field nonzero, OP 0x7-0xF; and, for a list of bytes,
fewer than the four a word has (R63). -/
inductive Reject where
  | tooShort
  | reservedBit
  | unusedField
  | reservedOp
  deriving DecidableEq, Repr

/-- `Decode(w)` of R68: total over all words, ILLEGAL (with the reason R69 lists) where R68 says ILLEGAL. -/
def decodeWord (w : Word) : Except Reject Instr :=
  let lvl := levelField w
  let idx := indexField w
  if rsv0Field w ≠ 0#4 ∨ rsv1Field w ≠ 0#2 ∨ rsv2Field w ≠ 0#8 then .error .reservedBit
  else if opField w = 0x0#4 then (if lvl = 0#6 ∧ idx = 0#8 then .ok .nop else .error .unusedField)
  else if opField w = 0x1#4 then (if lvl = 0#6 then .ok (.dist idx) else .error .unusedField)
  else if opField w = 0x2#4 then (if lvl = 0#6 ∧ idx = 0#8 then .ok .matchTarget else .error .unusedField)
  else if opField w = 0x3#4 then (if idx = 0#8 then .ok (.dim lvl) else .error .unusedField)
  else if opField w = 0x4#4 then .ok (.dimp lvl idx)
  else if opField w = 0x5#4 then .ok (.quant lvl idx)
  else if opField w = 0x6#4 then (if lvl = 0#6 ∧ idx = 0#8 then .ok .gen else .error .unusedField)
  else .error .reservedOp

/-! ### Bytes and words: little-endian (spec/20_memory.md R47) -/

/-- The word whose bytes, lowest address first, are b0, b1, b2, b3. -/
def wordOfBytes (b0 b1 b2 b3 : Byte) : Word :=
  b0.setWidth 32 ||| b1.setWidth 32 <<< 8 ||| b2.setWidth 32 <<< 16 ||| b3.setWidth 32 <<< 24

/-- Byte k of a word: bits 8k+7 : 8k. -/
def byteOfWord (w : Word) (k : Nat) : Byte := w.extractLsb' (8 * k) 8

/-- The four bytes of a word, lowest address first. -/
def wordBytes (w : Word) : List Byte := [byteOfWord w 0, byteOfWord w 1, byteOfWord w 2, byteOfWord w 3]

/-- Decode the command at the front of any list of bytes and give the rest of the list. Every command is four bytes
(R63). -/
def decode : List Byte → Except Reject (Instr × List Byte)
  | b0 :: b1 :: b2 :: b3 :: rest => (decodeWord (wordOfBytes b0 b1 b2 b3)).map fun i => (i, rest)
  | _ => .error .tooShort

/-! ### Encode (R64, R66, R67) -/

/-- The command word with these fields and every reserved bit 0 (R64). -/
def cmdWord (op : BitVec 4) (lvl : Level) (idx : Index) : Word :=
  op.setWidth 32 ||| lvl.setWidth 32 <<< 8 ||| idx.setWidth 32 <<< 16

/-- OP of each command (R67). -/
def Instr.op : Instr → BitVec 4
  | .nop => 0x0#4
  | .dist _ => 0x1#4
  | .matchTarget => 0x2#4
  | .dim _ => 0x3#4
  | .dimp _ _ => 0x4#4
  | .quant _ _ => 0x5#4
  | .gen => 0x6#4

/-- LEVEL of each command; 0 where the command does not use it (R66). -/
def Instr.level : Instr → Level
  | .nop => 0#6
  | .dist _ => 0#6
  | .matchTarget => 0#6
  | .dim lvl => lvl
  | .dimp lvl _ => lvl
  | .quant lvl _ => lvl
  | .gen => 0#6

/-- INDEX of each command; 0 where the command does not use it (R66). -/
def Instr.index : Instr → Index
  | .nop => 0#8
  | .dist idx => idx
  | .matchTarget => 0#8
  | .dim _ => 0#8
  | .dimp _ idx => idx
  | .quant _ idx => idx
  | .gen => 0#8

/-- The word of a command (R64, R66, R67). -/
def encode (i : Instr) : Word := cmdWord i.op i.level i.index

/-! ### The opcode map as data (R67) -/

/-- One row of the opcode map: a word selects it when (w AND mask) = val. -/
structure OpRow where
  mnemonic : String
  val : Word
  mask : Word
  deriving DecidableEq, Repr

/-- The seven rows of R67, as the spec prints them. -/
def opcodeTable : List OpRow :=
  [⟨"NOP", 0x00000000#32, 0xFFFFFFFF#32⟩,
   ⟨"DIST", 0x00000001#32, 0xFF00FFFF#32⟩,
   ⟨"MATCH", 0x00000002#32, 0xFFFFFFFF#32⟩,
   ⟨"DIM", 0x00000003#32, 0xFFFFC0FF#32⟩,
   ⟨"DIMP", 0x00000004#32, 0xFF00C0FF#32⟩,
   ⟨"QUANT", 0x00000005#32, 0xFF00C0FF#32⟩,
   ⟨"GEN", 0x00000006#32, 0xFFFFFFFF#32⟩]

/-- The mnemonic of a command (R70). -/
def Instr.mnemonic : Instr → String
  | .nop => "NOP"
  | .dist _ => "DIST"
  | .matchTarget => "MATCH"
  | .dim _ => "DIM"
  | .dimp _ _ => "DIMP"
  | .quant _ _ => "QUANT"
  | .gen => "GEN"

/-- A word selects a row when (w AND mask) = match (R67). -/
abbrev OpRow.selects (r : OpRow) (w : Word) : Prop := w &&& r.mask = r.val

/-! ### The host's way in -/

/-- The instruction the decoder reads from the instruction whose bits are `w`, numbered as spec/opcode_table.json numbers
them: the low `nbits` bits of `w`, every bit above them 0, laid out as four bytes, lowest address first. -/
def decodeTableWord (nbits w : Nat) : Option Instr :=
  match decode (wordBytes (BitVec.ofNat 32 (w % 2 ^ nbits))) with
  | .ok (i, _) => some i
  | .error _ => none

end Sys2Proof
end

