-- ==== Sys2Proof/Machine/State.lean ====
section
/-! DEFINITION. The state of the machine as plain data (spec/10_state.md; INVENTORY.md, State), the reasons a step can
stop, and the state right after reset (R39). -/

namespace Sys2Proof.Machine

/-- PAL and CMAP as one byte memory keyed by host address (spec/20_memory.md R41): a list of cells with strictly rising
addresses. An address that is not listed was not written since reset and has no value (R40; log 8). -/
abbrev Memory := List Host.Cell

/-- One host bus transaction at a byte address, of some size in bytes (R45). The data of a write is a 32-bit word; a
1-byte write moves its bits 7:0 (R47). -/
inductive Txn where
  | read (addr : Addr) (size : Nat)
  | write (addr : Addr) (size : Nat) (value : Word)
  deriving DecidableEq, Repr

/-- An operand of a host operation: a word, or the value a name is bound to when the operation is performed
(spec/30_encoding.md R71). -/
inductive Operand where
  | word (w : Word)
  | name (id : Ident)
  deriving DecidableEq, Repr

/-- What a host program still has to do: a read, whose value may be bound to a name, or a write (R71), of some size in bytes; or
the polling loop WAIT (R72), the only loop of a host program. -/
inductive HostOp where
  | read (addr : Operand) (size : Nat) (name : Option Name)
  | write (addr : Operand) (size : Nat) (value : Operand)
  | wait
  deriving DecidableEq, Repr

/-- Who moves next (log 1): the host performs its next operation, the core takes its completion step (R76), the core
writes one cell of the GEN in progress (R104), or the reset input is asserted or released (R127). -/
inductive Turn where
  | host
  | core
  | cell (y : Level) (x : Index)
  | reset (asserted : Bool)
  deriving DecidableEq, Repr

/-- The four error events, each a STATUS bit (spec/60_exceptions.md R109-R114). -/
inductive Err where
  | ill
  | busy
  | palwr
  | acc
  deriving DecidableEq, Repr

/-- The regions of the address map (R41). -/
inductive Region where
  | cmap
  | pal
  | reg
  | reserved
  deriving DecidableEq, Repr

/-- The seven memory-mapped registers (R20). -/
inductive Reg where
  | id
  | cmd
  | status
  | irqEn
  | target
  | result
  | mindist
  deriving DecidableEq, Repr

/-- The machine's state. -/
structure State where
  /-- STATUS.BUSY (R26). -/
  busy : Bool
  /-- STATUS.DONE (R26). -/
  done : Bool
  /-- STATUS.CMAP_VALID (R26, R27). -/
  cmapValid : Bool
  /-- STATUS.ERR_ILL (R26, R110). -/
  errIll : Bool
  /-- STATUS.ERR_BUSY (R26, R111). -/
  errBusy : Bool
  /-- STATUS.ERR_PALWR (R26, R112). -/
  errPalwr : Bool
  /-- STATUS.ERR_ACC (R26, R113). -/
  errAcc : Bool
  /-- IRQ_EN.DONE_IE (R28). -/
  doneIe : Bool
  /-- IRQ_EN.ERR_IE (R28). -/
  errIe : Bool
  /-- TARGET (R29). -/
  target : Triple
  /-- RESULT (R30). -/
  result : Word
  /-- MINDIST, its 18 significant bits (R30). -/
  mindist : BitVec 18
  /-- CUR.OP of the accepted command (R35). -/
  curOp : BitVec 4
  /-- CUR.LEVEL of the accepted command (R35). -/
  curLevel : Level
  /-- CUR.INDEX of the accepted command (R35). -/
  curIndex : Index
  /-- LT: TARGET as it was at acceptance (R35). -/
  lt : Triple
  /-- GEN progress: the addresses of the cells the current GEN run has written, strictly rising (R36). -/
  genProgress : List Nat
  /-- PAL and CMAP (R31, R33, R41). -/
  mem : Memory
  /-- The reset input: asserted or not (R127). -/
  rst : Bool
  /-- MODEL'S OWN (log 9): the host program's pending operations, in program order (R58). -/
  host : List HostOp
  /-- MODEL'S OWN (log 1, log 9): the turns still to be taken, the next one first. -/
  sched : List Turn
  /-- MODEL'S OWN (log 9, log 23): what the host program's names are bound to, the newest binding first (R71). -/
  names : List (Name × Word)
  /-- MODEL'S OWN (log 9, log 16): what every HostRead so far returned, newest first (R54, R71). -/
  replies : List Word
  /-- MODEL'S OWN (log 5): how many free bytes have been drawn. -/
  draws : Nat
  deriving DecidableEq, Repr

/-- Why the machine stops with a fault. -/
inductive Fault where
  /-- The core reads a PAL byte that nothing has written since reset (R40; 93 U5; 92 D28). Raised by DIST, MATCH, DIMP, QUANT
  of an index below 224 and GEN, and by a `cell` turn of GEN. Safe: the hardware goes on with an unspecified result. -/
  | unwrittenPal
  deriving DecidableEq, Repr

/-- Why the machine has no meaning for what it would run. -/
inductive Refusal where
  /-- Raised by `exec`'s arm of an instruction that has no meaning yet. Safe. -/
  | notModelled (mnemonic : String)
  /-- Raised by the core's turn in a busy state whose latched fields are no command (log 13). No run from reset reaches
  such a state: only a decoded word is accepted (R73). Safe. -/
  | undecodableLatch
  deriving DecidableEq, Repr

/-- The machine right after reset (R39). CUR and LT have no meaning while BUSY = 0; their 0 is a DESIGN CHOICE (log 7).
The model's own fields start empty (log 9). -/
def State.reset : State where
  busy := false
  done := false
  cmapValid := false
  errIll := false
  errBusy := false
  errPalwr := false
  errAcc := false
  doneIe := false
  errIe := false
  target := Triple.black
  result := 0#32
  mindist := 0#18
  curOp := 0#4
  curLevel := 0#6
  curIndex := 0#8
  lt := Triple.black
  genProgress := []
  mem := []
  rst := false
  host := []
  sched := []
  names := []
  replies := []
  draws := 0

end Sys2Proof.Machine
end

