-- ==== Sys2Proof/Machine/Flags.lean ====
section
/-! DEFINITION. The STATUS flags: the register's word (spec/10_state.md R26), clearing by writing one (R26), and the
interrupt line (spec/60_exceptions.md R116). -/

namespace Sys2Proof.Machine

/-- A word with bit k set when the flag is, and every other bit 0. -/
def flagAt (b : Bool) (k : Nat) : Word := if b then 1#32 <<< k else 0#32

/-- The STATUS bit number, which is the cause code, of an error (R114). -/
def Err.code : Err → Nat
  | .ill => 8
  | .busy => 9
  | .palwr => 10
  | .acc => 11

/-- The value STATUS reads (R26). Bits 7:3 and 31:12 read 0 (R21). -/
def statusWord (s : State) : Word :=
  flagAt s.busy 0 ||| flagAt s.done 1 ||| flagAt s.cmapValid 2 ||| flagAt s.errIll Err.ill.code
    ||| flagAt s.errBusy Err.busy.code ||| flagAt s.errPalwr Err.palwr.code ||| flagAt s.errAcc Err.acc.code

/-- The value IRQ_EN reads (R28). Bits 31:2 read 0 (R21). -/
def irqEnWord (s : State) : Word := flagAt s.doneIe 0 ||| flagAt s.errIe 1

/-- A host write of w to STATUS (R26): each of the bits 1, 8, 9, 10, 11 that is 1 in w is cleared. -/
def clearStatus (w : Word) (s : State) : State :=
  { s with
    done := s.done && !w.getLsbD 1
    errIll := s.errIll && !w.getLsbD Err.ill.code
    errBusy := s.errBusy && !w.getLsbD Err.busy.code
    errPalwr := s.errPalwr && !w.getLsbD Err.palwr.code
    errAcc := s.errAcc && !w.getLsbD Err.acc.code }

/-- Some error bit is set. -/
def anyError (s : State) : Bool := s.errIll || s.errBusy || s.errPalwr || s.errAcc

/-- The interrupt output (R116). -/
def irq (s : State) : Bool := (s.doneIe && s.done) || (s.errIe && anyError s)

end Sys2Proof.Machine
end

