-- ==== Sys2Proof/Machine/Ops.lean ====
section
/-! DEFINITION. The shared operations over memory and registers: byte memory, raising an error (what this block has in
place of an exception entry, spec/60_exceptions.md R109, R118), issue, acceptance and completion (spec/40_command.md),
reset (spec/70_reset_and_hazards.md), and the host's transactions (spec/20_memory.md R54). -/

namespace Sys2Proof.Machine

/-! ### Byte memory -/

/-- The byte at an address; none for a byte nothing has written since reset (R40). -/
def Memory.read : Memory → Nat → Option Byte
  | [], _ => none
  | (k, v) :: m, a => if k = a then some v else Memory.read m a

/-- Write one byte, keeping the addresses strictly rising. -/
def Memory.write : Memory → Nat → Byte → Memory
  | [], a, b => [(a, b)]
  | (k, v) :: m, a, b =>
    if a < k then (a, b) :: (k, v) :: m else if a = k then (a, b) :: m else (k, v) :: Memory.write m a b

/-- The canonical form: strictly rising addresses. (An unlisted address has no value, so no entry can equal it.) -/
def Memory.wf : Memory → Bool
  | [] => true
  | [_] => true
  | (a, _) :: (b, v) :: m => decide (a < b) && Memory.wf ((b, v) :: m)

/-- Insert into a strictly rising list of addresses, which stays strictly rising. -/
def insertRising (a : Nat) : List Nat → List Nat
  | [] => [a]
  | k :: l => if a < k then a :: k :: l else if a = k then k :: l else k :: insertRising a l

/-! ### Raising an error (R109) -/

/-- `raise Error(E)`: set STATUS bit E, and nothing else. It is no trap: nothing is saved and control goes nowhere
(R118), so there is no return either; the host clears the bit by `clearStatus` (R119). -/
def raise : Err → State → State
  | .ill, s => { s with errIll := true }
  | .busy, s => { s with errBusy := true }
  | .palwr, s => { s with errPalwr := true }
  | .acc, s => { s with errAcc := true }

/-! ### Issue, acceptance and completion (spec/40_command.md) -/

/-- A GEN is in progress: STATUS.BUSY = 1 and CUR.OP = GEN (R53). -/
def generating (s : State) : Bool := s.busy && s.curOp == Instr.gen.op

/-- Acceptance of the word w (R73): CUR and LT are latched, DONE is cleared and BUSY set in one step; for GEN, CMAP_VALID is
cleared and the run has written no cell yet (R27, R36). -/
def accept (w : Word) (s : State) : State :=
  { s with
    curOp := opField w
    curLevel := levelField w
    curIndex := indexField w
    lt := s.target
    done := false
    busy := true
    cmapValid := s.cmapValid && !(opField w == Instr.gen.op)
    genProgress := if opField w = Instr.gen.op then [] else s.genProgress }

/-- `Issue(w)` (R73): while busy the word is dropped undecoded with ERR_BUSY; an illegal word is dropped with ERR_ILL;
otherwise the command is accepted. -/
def issue (w : Word) (s : State) : State :=
  if s.busy then raise .busy s
  else match decodeWord w with
    | .error _ => raise .ill s
    | .ok _ => accept w s

/-- The command word the latched fields stand for; the reserved bits of an accepted word are 0 (R35, R64). -/
def latchedWord (s : State) : Word := cmdWord s.curOp s.curLevel s.curIndex

/-- The command the core runs: the latched fields, decoded (R35, R76). -/
def fetch (s : State) : Except Reject Instr := decodeWord (latchedWord s)

/-- The end of `Complete()` (R76), taken on the state the op's effect leaves: BUSY <- 0, DONE <- 1. -/
def complete (s : State) : Host.Outcome State Fault Refusal := .next { s with busy := false, done := true }

/-! ### Reset (R127-R129) -/

/-- The reset input is asserted or released: every piece of the block's state takes its value of R39; the outside world's
pending operations, names, schedule, replies and draws are not the block's and stay (log 12). -/
def resetBlock (asserted : Bool) (s : State) : State :=
  { State.reset with
    rst := asserted, host := s.host, sched := s.sched, names := s.names, replies := s.replies, draws := s.draws }

/-! ### The address map (R41, R42, R45) -/

/-- The region of an address (R41). -/
def regionOf (a : Nat) : Region :=
  if a < Config.palBase then .cmap
  else if a < Config.palEnd then .pal
  else if a < Config.regBase then .reserved
  else if a < Config.regEnd then .reg
  else .reserved

/-- The register at an offset inside REG (R20); none at the reserved offsets. -/
def regAt (off : Nat) : Option Reg :=
  if off = 0x00 then some .id
  else if off = 0x04 then some .cmd
  else if off = 0x08 then some .status
  else if off = 0x0C then some .irqEn
  else if off = 0x10 then some .target
  else if off = 0x14 then some .result
  else if off = 0x18 then some .mindist
  else none

/-- Where a legal transaction goes. -/
inductive Place where
  /-- A byte or an aligned word of CMAP, of so many bytes. -/
  | cmap (bytes : Nat)
  /-- A byte or an aligned word of PAL, of so many bytes. -/
  | pal (bytes : Nat)
  /-- A register. -/
  | reg (r : Reg)
  deriving DecidableEq, Repr

/-- The legality check (R45) and the decoding of the address in one: none for a bad access. -/
def placeOf (a : Addr) (n : Nat) : Option Place :=
  if n = 1 ∨ (n = 4 ∧ a.toNat % 4 = 0) then
    match regionOf a.toNat with
    | .cmap => some (.cmap n)
    | .pal => some (.pal n)
    | .reg => if n = 4 then (regAt (a.toNat - Config.regBase)).map .reg else none
    | .reserved => none
  else none

/-! ### Host reads (R54) -/

/-- The byte a host read of CMAP or PAL finds; none where the spec says any value: CMAP while a GEN is in progress (R53)
and a byte nothing has written since reset (R40; 93 U6). -/
def hostByte (s : State) (a : Nat) : Option Byte :=
  if generating s ∧ a < Config.palBase then none else Memory.read s.mem a

/-- The byte at a + k as the read returns it: the stored byte, or the k-th free byte of this read (log 5). -/
def readByte (s : State) (a k : Nat) : Byte := (hostByte s (a + k)).getD (Config.freeByte (s.draws + k))

/-- The word a read of n bytes at a returns, little-endian (R47). -/
def readMem (s : State) (a n : Nat) : Word :=
  if n = 1 then (readByte s a 0).setWidth 32
  else wordOfBytes (readByte s a 0) (readByte s a 1) (readByte s a 2) (readByte s a 3)

/-- A triple in a word: R in bits 7:0, G in 15:8, B in 23:16, bits 31:24 zero (R13). -/
def pack (t : Triple) : Word := wordOfBytes t.r t.g t.b 0#8

/-- The triple in a word's bits 23:0 (R29). -/
def unpack (w : Word) : Triple := ⟨byteOfWord w 0, byteOfWord w 1, byteOfWord w 2⟩

/-- The value a register reads (R20-R30); CMD reads 0 (R22). -/
def regRead (s : State) : Reg → Word
  | .id => Config.idWord
  | .cmd => 0#32
  | .status => statusWord s
  | .irqEn => irqEnWord s
  | .target => pack s.target
  | .result => s.result
  | .mindist => s.mindist.setWidth 32

/-- `HostRead(a, n)` (R54): the value returned, and the state after. A read changes no register and no memory (R23); a bad
one raises ERR_ACC and returns 0 (R46). A read of CMAP or PAL uses up one draw per byte (log 5). -/
def hostRead (a : Addr) (n : Nat) (s : State) : Word × State :=
  match placeOf a n with
  | none => (0#32, raise .acc s)
  | some (.cmap n) => (readMem s a.toNat n, { s with draws := s.draws + n })
  | some (.pal n) => (readMem s a.toNat n, { s with draws := s.draws + n })
  | some (.reg r) => (regRead s r, s)

/-! ### Host writes (R54) -/

/-- Write the low n bytes (1 or 4) of v at a, little-endian (R47). -/
def writeMem (m : Memory) (a n : Nat) (v : Word) : Memory :=
  if n = 1 then Memory.write m a (byteOfWord v 0)
  else Memory.write (Memory.write (Memory.write (Memory.write m a (byteOfWord v 0)) (a + 1) (byteOfWord v 1))
    (a + 2) (byteOfWord v 2)) (a + 3) (byteOfWord v 3)

/-- A host write of v to a register (R54). ID, RESULT and MINDIST are read-only (R22). -/
def regWrite (r : Reg) (v : Word) (s : State) : State :=
  match r with
  | .id => raise .acc s
  | .cmd => issue v s
  | .status => clearStatus v s
  | .irqEn => { s with doneIe := v.getLsbD 0, errIe := v.getLsbD 1 }
  | .target => { s with target := unpack v }
  | .result => raise .acc s
  | .mindist => raise .acc s

/-- A legal host write to PAL (R50, R51): refused with ERR_PALWR while busy; otherwise its bytes are written and CMAP_VALID
is cleared in the same step. -/
def palWrite (a n : Nat) (v : Word) (s : State) : State :=
  if s.busy then raise .palwr s else { s with mem := writeMem s.mem a n v, cmapValid := false }

/-- `HostWrite(a, n, v)` (R54). CMAP is read-only to the host (R44). -/
def hostWrite (a : Addr) (n : Nat) (v : Word) (s : State) : State :=
  match placeOf a n with
  | none => raise .acc s
  | some (.cmap _) => raise .acc s
  | some (.pal n) => palWrite a.toNat n v s
  | some (.reg r) => regWrite r v s

/-- One host transaction: a read's value is the newest reply (log 16). -/
def hostTxn (t : Txn) (s : State) : State :=
  match t with
  | .read a n => { (hostRead a n s).2 with replies := (hostRead a n s).1 :: s.replies }
  | .write a n v => hostWrite a n v s

/-! ### Operations of a host program (spec/30_encoding.md R71, R72) -/

/-- The host address of STATUS (R20). -/
def statusAddr : Addr := 0x8008#16

/-- The value of an operand: of a name (R71), what the latest read bound it to, and any value where none did (DESIGN CHOICE,
log 23). -/
def operandValue (s : State) : Operand → Word
  | .word w => w
  | .name id => (s.names.lookup (.ident id)).getD (Config.unboundName s.draws id)

/-- The host address a word gives: 16 bits (R41); none where the word has more. -/
def addrOf (w : Word) : Option Addr := if w.toNat < 65536 then some (w.setWidth 16) else none

/-- The transaction an operation is (R71); WAIT's is its read of STATUS (R72). None for an address outside the 16 bits: it is
no transaction of the block (log 23). -/
def txnOf (s : State) : HostOp → Option Txn
  | .read a n _ => (addrOf (operandValue s a)).map fun a => .read a n
  | .write a n v => (addrOf (operandValue s a)).map fun a => .write a n (operandValue s v)
  | .wait => some (.read statusAddr 4)

/-- The value an operation's read returns; any value where the block is not read (log 23). -/
def opValue (s : State) (op : HostOp) : Word :=
  match txnOf s op with
  | some (.read a n) => (hostRead a n s).1
  | _ => Config.freeWord s.draws

/-- What an operation does beyond the host program: its transaction, or a draw where it is none of the block's. -/
def opEffect (op : HostOp) (s : State) : State :=
  match txnOf s op with
  | some t => hostTxn t s
  | none => { s with draws := s.draws + 1 }

/-- The bindings after an operation whose read returned v: `-> name` binds the name (R71). -/
def bindName (op : HostOp) (v : Word) (names : List (Name × Word)) : List (Name × Word) :=
  match op with
  | .read _ _ (some name) => (name, v) :: names
  | .read _ _ none => names
  | .write _ _ _ => names
  | .wait => names

/-- WAIT stays the next operation while the value read has bit 0 set (R72). -/
def repeats (op : HostOp) (v : Word) : Bool :=
  match op with
  | .wait => v.getLsbD 0
  | .read _ _ _ => false
  | .write _ _ _ => false

/-- The host performs the operation op, which the operations ops follow. -/
def performOp (op : HostOp) (ops : List HostOp) (s : State) : State :=
  { opEffect op s with
    host := if repeats op (opValue s op) then op :: ops else ops
    names := bindName op (opValue s op) s.names }

end Sys2Proof.Machine
end

