-- ==== Sys2Proof/Machine/Operands.lean ====
section
/-! DEFINITION. The operands the core's commands read: one palette entry, and the whole palette (spec/10_state.md R31,
spec/20_memory.md R43, R55). A core read of an unwritten PAL byte faults (R40; log 4). -/

namespace Sys2Proof.Machine

/-- A palette: 256 entries (R31). -/
structure Palette where
  entries : List Triple
  size : entries.length = Config.numColors
  deriving DecidableEq, Repr

/-- PAL[i] of a palette (R13). -/
def Palette.get (P : Palette) (i : Index) : Triple :=
  P.entries[i.toNat]'(by rw [P.size]; exact i.isLt)

/-- The host address of channel c (0 R, 1 G, 2 B) of palette entry i (R43). -/
def palAddr (i c : Nat) : Nat := Config.palBase + 3 * i + c

/-- Palette entry i as PAL holds it; none while one of its three bytes is unwritten (R40). -/
def palEntry (m : Memory) (i : Nat) : Option Triple :=
  match Memory.read m (palAddr i 0), Memory.read m (palAddr i 1), Memory.read m (palAddr i 2) with
  | some r, some g, some b => some ⟨r, g, b⟩
  | _, _, _ => none

/-- The palette as PAL holds it; none while any of its 768 bytes is unwritten (R40): only then are fewer than 256 entries
whole. -/
def palette (m : Memory) : Option Palette :=
  let entries := (List.range Config.numColors).filterMap (palEntry m)
  if size : entries.length = Config.numColors then some ⟨entries, size⟩ else none

/-- Complete a command whose effect reads one palette entry, or fault on an unwritten byte of it (R40). -/
def withEntry (s : State) (idx : Index) (effect : Triple → State) : Host.Outcome State Fault Refusal :=
  match palEntry s.mem idx.toNat with
  | some t => complete (effect t)
  | none => .fault .unwrittenPal

/-- Complete a command whose effect reads the whole palette, or fault on an unwritten byte of it (R40). -/
def withPalette (s : State) (effect : Palette → State) : Host.Outcome State Fault Refusal :=
  match palette s.mem with
  | some P => complete (effect P)
  | none => .fault .unwrittenPal

end Sys2Proof.Machine
end

