-- ==== Sys2Proof/Machine/Command.lean ====
section
/-! DEFINITION. NOP (spec/40_command.md R78). The meanings of this file and of Matcher, Dimmer and Generator are the
completion step of their command (R76; log 20): its effect, then `complete`. -/

namespace Sys2Proof.Machine

/-- NOP: `Effect = skip` (R78). -/
def execNop (s : State) : Host.Outcome State Fault Refusal := complete s

end Sys2Proof.Machine
end

