-- ==== Sys2Proof/Machine/Dimmer.lean ====
section
/-! DEFINITION. DIMMER, and the commands DIM and DIMP (spec/42_dimmer.md). -/

namespace Sys2Proof.Machine

/-- `clamp(v, lo, hi)` (spec/00_scope.md R12). -/
def clamp (v lo hi : Nat) : Nat := min hi (max lo v)

/-- `dim1(v, y)` (R92). -/
def dim1 (v : Byte) (y : Level) : Byte :=
  BitVec.ofNat 8 (clamp ((v.toNat * (63 - y.toNat) + Config.dimBias) >>> Config.dimShift) 0 255)

/-- `dim(t, y)` (R93): the three channels independently. -/
def dim (t : Triple) (y : Level) : Triple := ⟨dim1 t.r y, dim1 t.g y, dim1 t.b y⟩

/-- DIM lvl (R96): RESULT <- pack(dim(LT, lvl)); MINDIST unchanged. -/
def execDim (lvl : Level) (s : State) : Host.Outcome State Fault Refusal :=
  complete { s with result := pack (dim s.lt lvl) }

/-- DIMP lvl, idx (R97): RESULT <- pack(dim(PAL[idx], lvl)), fullbright indices too; MINDIST unchanged. -/
def execDimp (lvl : Level) (idx : Index) (s : State) : Host.Outcome State Fault Refusal :=
  withEntry s idx fun p => { s with result := pack (dim p lvl) }

end Sys2Proof.Machine
end

