-- ==== Sys2Proof/Machine/Matcher.lean ====
section
/-! DEFINITION. DISTCALC and NNSEARCH, and the commands DIST and MATCH (spec/41_matcher.md). -/

namespace Sys2Proof.Machine

/-- One lane of the distance (R83, R91): the square of a signed difference. -/
def laneSq (t p : Byte) : Nat :=
  let d : Int := (t.toNat : Int) - (p.toNat : Int)
  (d * d).toNat

/-- `sqdist(t, p)` (R83): exact, 0 to 195075. -/
def sqdist (t p : Triple) : Nat := laneSq t.r p.r + laneSq t.g p.g + laneSq t.b p.b

/-- The ascending scan of R84 from candidate i on, with the best (index, distance) so far; an equal distance does not
replace it. -/
def scan (t : Triple) : List Triple → Nat → Nat × Nat → Nat × Nat
  | [], _, best => best
  | p :: ps, i, best => scan t ps (i + 1) (if sqdist t p < best.2 then (i, sqdist t p) else best)

/-- `nearest(P, t)` (R84): the lowest index at the least distance, and that distance. All 256 entries are candidates
(R86). -/
def nearest (P : Palette) (t : Triple) : Nat × Nat :=
  scan t (P.entries.drop 1) 1 (0, sqdist t (P.get 0))

/-- DIST idx (R87): RESULT <- the squared distance between LT and PAL[idx]; MINDIST unchanged. -/
def execDist (idx : Index) (s : State) : Host.Outcome State Fault Refusal :=
  withEntry s idx fun p => { s with result := BitVec.ofNat 32 (sqdist s.lt p) }

/-- RESULT <- the winning index, MINDIST <- the winning distance, of a search for t (R88, R102). -/
def searchEffect (P : Palette) (t : Triple) (s : State) : State :=
  { s with result := BitVec.ofNat 32 (nearest P t).1, mindist := BitVec.ofNat 18 (nearest P t).2 }

/-- MATCH (R88): the nearest palette index to LT. -/
def execMatch (s : State) : Host.Outcome State Fault Refusal :=
  withPalette s fun P => searchEffect P s.lt s

end Sys2Proof.Machine
end

