-- ==== Sys2Proof/Machine/Generator.lean ====
section
/-! DEFINITION. QUANTIZER and LUTGEN, and the commands QUANT and GEN (spec/43_generator.md). -/

namespace Sys2Proof.Machine

/-- An index of the fullbright columns, 224 to 255 (R8, R100). -/
def fullbright (x : Index) : Bool := decide (Config.fbBase ≤ x.toNat)

/-- `cell(P, y, x)` (R100). -/
def cell (P : Palette) (y : Level) (x : Index) : Byte :=
  if fullbright x then x else BitVec.ofNat 8 (nearest P (dim (P.get x) y)).1

/-- QUANT lvl, idx (R102): one cell, not stored. A fullbright index makes no search: MINDIST is unchanged and PAL is not
read. -/
def execQuant (lvl : Level) (idx : Index) (s : State) : Host.Outcome State Fault Refusal :=
  if fullbright idx then complete { s with result := idx.setWidth 32 }
  else withPalette s fun P => searchEffect P (dim (P.get idx) lvl) s

/-- The host address of the cell (y, x): 256·y + x (R44). -/
def cellAddr (y : Level) (x : Index) : Nat := 256 * y.toNat + x.toNat

/-- The light level of a cell's address (R44). -/
def levelOfCell (a : Nat) : Level := BitVec.ofNat 6 (a / 256)

/-- The palette index of a cell's address (R44). -/
def indexOfCell (a : Nat) : Index := BitVec.ofNat 8 (a % 256)

/-- The addresses below n that are not among the written ones, rising. Irreducible, so that no proof walks 16384 of them. -/
@[irreducible] def unwrittenBelow (n : Nat) (written : List Nat) : List Nat :=
  (List.range n).filter fun a => !written.contains a

/-- The cells the GEN in progress has not yet written, given those it has (R36). -/
def genTodo (written : List Nat) : List Nat := unwrittenBelow Config.cmapBytes written

/-- Write the cells at these addresses; each value depends on P, y and x alone, so the order changes nothing (R103). -/
def writeCells (P : Palette) (addrs : List Nat) (m : Memory) : Memory :=
  addrs.foldr (fun a m => Memory.write m a (cell P (levelOfCell a) (indexOfCell a))) m

/-- GEN at its completion (R104): every cell the run has not yet written is written, then CMAP_VALID <- 1; RESULT and MINDIST
unchanged; the run, and with it GEN progress, is over. -/
def execGen (s : State) : Host.Outcome State Fault Refusal :=
  withPalette s fun P =>
    { s with mem := writeCells P (genTodo s.genProgress) s.mem, cmapValid := true, genProgress := [] }

/-- The value of a cell as PAL stands; none while it depends on an unwritten PAL byte (R40). A fullbright column depends on
none (R101). -/
def cellOf (m : Memory) (y : Level) (x : Index) : Option Byte :=
  if fullbright x then some x else (palette m).map fun P => cell P y x

/-- Between acceptance and completion the core writes the cell (y, x) of the GEN in progress, each cell once per run
(R104). Where no GEN is in progress, or the cell is written, there is nothing to do (log 3). -/
def genCell (y : Level) (x : Index) (s : State) : Host.Outcome State Fault Refusal :=
  if generating s && !s.genProgress.contains (cellAddr y x) then
    match cellOf s.mem y x with
    | some b => .next { s with mem := Memory.write s.mem (cellAddr y x) b
                               genProgress := insertRising (cellAddr y x) s.genProgress }
    | none => .fault .unwrittenPal
  else .next s

end Sys2Proof.Machine
end

