-- ==== Sys2Proof/Machine/Dispatch.lean ====
section
/-! DEFINITION. One arm per command: the completion step of the command (spec/40_command.md R76). -/

namespace Sys2Proof.Machine

-- The meanings: the Effect of each command's rule, then BUSY <- 0 and DONE <- 1.
def exec (i : Instr) (s : State) : Host.Outcome State Fault Refusal :=
  match i with
  | .nop => Sys2Proof.Machine.execNop s
  | .dist idx => Sys2Proof.Machine.execDist idx s
  | .matchTarget => Sys2Proof.Machine.execMatch s
  | .dim lvl => Sys2Proof.Machine.execDim lvl s
  | .dimp lvl idx => Sys2Proof.Machine.execDimp lvl idx s
  | .quant lvl idx => Sys2Proof.Machine.execQuant lvl idx s
  | .gen => Sys2Proof.Machine.execGen s

end Sys2Proof.Machine
end

