-- ==== Sys2Proof/Machine/Agents.lean ====
section
/-! DEFINITION. The agents' turns (spec/00_scope.md R15, spec/10_state.md R17): the host's, the core's, the reset input's,
and which comes next (spec/20_memory.md R58, spec/70_reset_and_hazards.md R140). -/

namespace Sys2Proof.Machine

/-- The host performs its next operation. While reset is asserted the host gets no step (R127). -/
def hostTurn (s : State) : State :=
  if s.rst then s
  else match s.host with
    | [] => s
    | op :: ops => performOp op ops s

/-- The core's completion step (R76): enabled only when STATUS.BUSY = 1 (otherwise nothing happens, log 3); it runs the
latched command. -/
def coreTurn (s : State) : Host.Outcome State Fault Refusal :=
  if s.busy then
    match fetch s with
    | .ok i => exec i s
    | .error _ => .refused .undecodableLatch
  else .next s

/-- One turn. -/
def takeTurn (t : Turn) (s : State) : Host.Outcome State Fault Refusal :=
  match t with
  | .host => .next (hostTurn s)
  | .core => coreTurn s
  | .cell y x => genCell y x s
  | .reset asserted => .next (resetBlock asserted s)

/-- Whose turn it is, and the state with that turn taken off the schedule. When the schedule has run out, a command in
progress completes (R140: weak fairness), and otherwise the host goes on (log 2). -/
def nextTurn (s : State) : Turn × State :=
  match s.sched with
  | t :: rest => (t, { s with sched := rest })
  | [] => (if s.busy then .core else .host, s)

/-- Put the command w where the core takes its next command from: w is issued to the machine, idle and out of reset, and the
core's completion turn comes next (log 10). -/
def placeCommand (w : Word) (s : State) : State :=
  { issue w { s with busy := false, rst := false } with sched := .core :: s.sched }

end Sys2Proof.Machine
end

