-- ==== Sys2Proof/Machine/Step.lean ====
section
/-! DEFINITION. The step of the machine: one turn of one agent, each indivisible (spec/20_memory.md R58). -/

namespace Sys2Proof.Machine

/-- One step: the next agent's turn. -/
def step (s : State) : Host.Outcome State Fault Refusal := takeTurn (nextTurn s).1 (nextTurn s).2

/-- The state with the command word w accepted and the core's turn next (log 10). -/
def State.withFetchWord (s : State) (nbits w : Nat) : State := placeCommand (BitVec.ofNat 32 (w % 2 ^ nbits)) s

end Sys2Proof.Machine
end

