-- ==== Sys2Proof/Machine/Assembler.lean ====
section
/-! DEFINITION. The host side: the assembler of host programs (spec/30_encoding.md R70-R72) and the host's duties (boot
sequence, palette size, colormap sink: spec/70_reset_and_hazards.md R130-R132). Nothing here is the block's own; it says
which operations a host program puts in `State.host`. -/

namespace Sys2Proof.Machine

/-! ### Expansions (R70-R72) -/

/-- Addresses of the registers a pseudo-instruction names (R71). -/
def cmdAddr : Addr := 0x8004#16
/-- IRQ_EN (R71). -/
def irqEnAddr : Addr := 0x800C#16
/-- TARGET (R71). -/
def targetAddr : Addr := 0x8010#16

/-- An operand of a statement as an operand of an operation: an integer as a word, a name as it is (R71). -/
def operandOf : Arg → Operand
  | .num n => .word (BitVec.ofNat 32 n)
  | .name id => .name id

/-- `WR32 addr, value` with these integers as an operation (R71). -/
def wr32 (addr : Addr) (value : Word) : HostOp := .write (.word (addr.setWidth 32)) 4 (.word value)

/-- `RD32 addr -> name` with this integer as an operation (R71). -/
def rd32 (addr : Addr) (name : Option Name) : HostOp := .read (.word (addr.setWidth 32)) 4 name

/-- A command statement: one write of its word to CMD (R70). -/
def commandOp (i : Instr) : HostOp := wr32 cmdAddr (encode i)

/-- `LOADPAL P` (R72): the image's words, four bytes each, to PAL from this address on. -/
def loadWords : List Byte → Nat → List HostOp
  | b0 :: b1 :: b2 :: b3 :: rest, a => wr32 (BitVec.ofNat 16 a) (wordOfBytes b0 b1 b2 b3) :: loadWords rest (a + 4)
  | _, _ => []

/-- `READCMAP -> M` (R72): the 4096 word reads of CMAP, the k-th bound to the word `w_k` of the image. -/
def readCmapOps (image : Ident) : List HostOp :=
  (List.range 4096).map fun k => rd32 (BitVec.ofNat 16 (4 * k)) (some (.imageWord image k))

/-- The image M of `READCMAP -> M`: byte j is byte (j mod 4) of the word `w_(j div 4)` (R72); none before all of its words are
read. -/
def imageOf (names : List (Name × Word)) (image : Ident) : Option (List Byte) :=
  ((List.range 4096).mapM fun k => names.lookup (.imageWord image k)).map fun words => words.flatMap wordBytes

/-- The operations of a well-formed statement (R70-R72). -/
def expand : Stmt → List HostOp
  | .nop => [commandOp .nop]
  | .dist idx => [commandOp (.dist (BitVec.ofNat 8 idx))]
  | .matchTarget => [commandOp .matchTarget]
  | .dim lvl => [commandOp (.dim (BitVec.ofNat 6 lvl))]
  | .dimp lvl idx => [commandOp (.dimp (BitVec.ofNat 6 lvl) (BitVec.ofNat 8 idx))]
  | .quant lvl idx => [commandOp (.quant (BitVec.ofNat 6 lvl) (BitVec.ofNat 8 idx))]
  | .gen => [commandOp .gen]
  | .wr32 a v => [.write (operandOf a) 4 (operandOf v)]
  | .wr8 a v => [.write (operandOf a) 1 (operandOf v)]
  | .rd32 a name => [.read (operandOf a) 4 (name.map .ident)]
  | .rd8 a name => [.read (operandOf a) 1 (name.map .ident)]
  | .setrgb r g b => [wr32 targetAddr (pack ⟨BitVec.ofNat 8 r, BitVec.ofNat 8 g, BitVec.ofNat 8 b⟩)]
  | .setie m => [.write (.word (irqEnAddr.setWidth 32)) 4 (operandOf m)]
  | .clrst => [wr32 statusAddr 0x00000F02#32]
  | .wait => [.wait]
  | .loadpal image => loadWords image Config.palBase
  | .readcmap image => readCmapOps image

/-- Assemble a statement: the assembler rejects an operand out of range (R70, R72), the host an image of another size
(R130). -/
def assemble (st : Stmt) : Option (List HostOp) := if st.wf then some (expand st) else none

/-- Assemble a program: besides, a name is used only after a read that binds it (R71). -/
def assembleProgram (prog : List Stmt) : Option (List HostOp) :=
  if programWf [] prog then some (prog.flatMap expand) else none

/-! ### Text (R70, R71) -/

/-- Text after `;` is a comment (R70). -/
def stripComment (line : List Char) : List Char := line.takeWhile (· != ';')

/-- The tokens of a line: what spaces and commas separate. The second argument is the token being read, reversed. -/
def tokens : List Char → List Char → List (List Char)
  | [], cur => if cur.isEmpty then [] else [cur.reverse]
  | c :: cs, cur =>
    if c == ' ' || c == ',' then
      (if cur.isEmpty then tokens cs [] else cur.reverse :: tokens cs [])
    else tokens cs (c :: cur)

/-- The value of a digit, decimal or hexadecimal. -/
def digit (c : Char) : Option Nat :=
  if '0' ≤ c ∧ c ≤ '9' then some (c.toNat - '0'.toNat)
  else if 'a' ≤ c ∧ c ≤ 'f' then some (c.toNat - 'a'.toNat + 10)
  else if 'A' ≤ c ∧ c ≤ 'F' then some (c.toNat - 'A'.toNat + 10)
  else none

/-- The digits of a number in this base after the value read so far. -/
def digits (base : Nat) : List Char → Nat → Option Nat
  | [], n => some n
  | c :: cs, n =>
    match digit c with
    | some d => if d < base then digits base cs (base * n + d) else none
    | none => none

/-- An integer, decimal or `0x` hexadecimal (R70). -/
def number : List Char → Option Nat
  | [] => none
  | '0' :: 'x' :: c :: cs => digits 16 (c :: cs) 0
  | c :: cs => digits 10 (c :: cs) 0

/-- The symbols of R71, upper case as it prints them. -/
def symbols : List (List Char × Nat) :=
  [(['I', 'D'], 0x8000), (['C', 'M', 'D'], 0x8004), (['S', 'T', 'A', 'T', 'U', 'S'], 0x8008),
   (['I', 'R', 'Q', '_', 'E', 'N'], 0x800C), (['T', 'A', 'R', 'G', 'E', 'T'], 0x8010),
   (['R', 'E', 'S', 'U', 'L', 'T'], 0x8014), (['M', 'I', 'N', 'D', 'I', 'S', 'T'], 0x8018),
   (['P', 'A', 'L'], 0x4000), (['C', 'M', 'A', 'P'], 0x0000)]

/-- A letter or the underscore. -/
def isLetter (c : Char) : Bool := decide ('a' ≤ c ∧ c ≤ 'z') || decide ('A' ≤ c ∧ c ≤ 'Z') || c == '_'

/-- A name: letters, digits and underscores, the first no digit, and none of the symbols (R71; log 23). -/
def ident (t : List Char) : Option Ident :=
  match t with
  | [] => none
  | c :: cs =>
    if isLetter c && cs.all (fun c => isLetter c || (digit c).any (· < 10)) && (symbols.lookup t).isNone then some t else none

/-- A value operand: an integer or a name (R71). DESIGN CHOICE (log 22): no symbol, since R71 offers the symbols for
addresses. -/
def value (t : List Char) : Option Arg :=
  match number t with
  | some n => some (.num n)
  | none => (ident t).map .name

/-- An address operand: a symbol, an integer or a name (R71). DESIGN CHOICE (log 22): one token, so no sum such as `PAL + 4`;
an address beside a symbol is written as its integer. -/
def address (t : List Char) : Option Arg :=
  match symbols.lookup t with
  | some a => some (.num a)
  | none => value t

/-- The mnemonics of the statements (R70-R72), upper case only. -/
inductive Keyword where
  | nop | dist | matchTarget | dim | dimp | quant | gen | wr32 | wr8 | rd32 | rd8
  | setrgb | setie | clrst | wait | loadpal | readcmap
  deriving DecidableEq, Repr

/-- The mnemonics by their letters (R70-R72). -/
def mnemonics : List (List Char × Keyword) :=
  [(['N', 'O', 'P'], .nop), (['D', 'I', 'S', 'T'], .dist), (['M', 'A', 'T', 'C', 'H'], .matchTarget),
   (['D', 'I', 'M'], .dim), (['D', 'I', 'M', 'P'], .dimp), (['Q', 'U', 'A', 'N', 'T'], .quant), (['G', 'E', 'N'], .gen),
   (['W', 'R', '3', '2'], .wr32), (['W', 'R', '8'], .wr8), (['R', 'D', '3', '2'], .rd32), (['R', 'D', '8'], .rd8),
   (['S', 'E', 'T', 'R', 'G', 'B'], .setrgb), (['S', 'E', 'T', 'I', 'E'], .setie), (['C', 'L', 'R', 'S', 'T'], .clrst),
   (['W', 'A', 'I', 'T'], .wait), (['L', 'O', 'A', 'D', 'P', 'A', 'L'], .loadpal),
   (['R', 'E', 'A', 'D', 'C', 'M', 'A', 'P'], .readcmap)]

/-- The operands of a reading statement: those before `-> name`, and the name (R71). -/
def splitBinding : List (List Char) → Option (List (List Char) × Option Ident)
  | [] => some ([], none)
  | [t] => some ([t], none)
  | [['-', '>'], name] => (ident name).map fun id => ([], some id)
  | [t, ['-', '>'], name] => (ident name).map fun id => ([t], some id)
  | _ => none

/-- One statement from its mnemonic and operand tokens; `images` gives the palette images their names. -/
def statement (images : List (List Char × List Byte)) (w : Keyword) (ops : List (List Char)) : Option Stmt :=
  match w, ops with
  | .nop, [] => some .nop
  | .dist, [x] => (number x).map .dist
  | .matchTarget, [] => some .matchTarget
  | .dim, [y] => (number y).map .dim
  | .dimp, [y, x] => (number y).bind fun y => (number x).map (.dimp y)
  | .quant, [y, x] => (number y).bind fun y => (number x).map (.quant y)
  | .gen, [] => some .gen
  | .wr32, [a, v] => (address a).bind fun a => (value v).map (.wr32 a)
  | .wr8, [a, v] => (address a).bind fun a => (value v).map (.wr8 a)
  | .rd32, ops => match splitBinding ops with
    | some ([a], name) => (address a).map (.rd32 · name)
    | _ => none
  | .rd8, ops => match splitBinding ops with
    | some ([a], name) => (address a).map (.rd8 · name)
    | _ => none
  | .setrgb, [r, g, b] => (number r).bind fun r => (number g).bind fun g => (number b).map (.setrgb r g)
  | .setie, [m] => (value m).map .setie
  | .clrst, [] => some .clrst
  | .wait, [] => some .wait
  | .loadpal, [p] => (images.lookup p).map .loadpal
  | .readcmap, ops => match splitBinding ops with
    | some ([], some image) => some (.readcmap image)
    | _ => none
  | _, _ => none

/-- The statement of one line of text, or none on a line that holds only a comment; no answer for a line that is no
statement. -/
def parseLine (images : List (List Char × List Byte)) (line : List Char) : Option (List Stmt) :=
  match tokens (stripComment line) [] with
  | [] => some []
  | m :: ops => (mnemonics.lookup m).bind fun w => (statement images w ops).map fun st => [st]

/-- Assemble the lines of a program's text; no answer where the assembler rejects it. -/
def assembleText (images : List (List Char × List Byte)) (lines : List (List Char)) : Option (List HostOp) :=
  (lines.mapM (parseLine images)).bind fun stmts => assembleProgram stmts.flatten

/-! ### Host duties (R130-R132) -/

/-- The name of the image that the boot sequence reads (log 24). -/
def bootImage : Ident := ['M']

/-- Steps 2 to 8 of the boot sequence (R131), after reset: nothing is written or issued for an image of another size
(R130). `withIrq` is the optional step 4. DESIGN CHOICE (log 24), of the ways R131 leaves the host: PAL is loaded before
interrupts are enabled (steps 3 and 4 may be swapped), and step 6 waits by WAIT, with interrupts enabled too (it may wait by
irq). -/
def bootProgram (image : List Byte) (withIrq : Bool) : Option (List HostOp) :=
  (assemble (.loadpal image)).map fun load =>
    load ++ (if withIrq then expand (.setie (.num 1)) else []) ++ expand .gen ++ expand .wait ++
      [rd32 statusAddr (some (.ident ['s']))] ++ readCmapOps bootImage

/-- Step 7 and the sink's duty (R131, R132): the image is delivered in full when STATUS read CMAP_VALID = 1 and no error
bit and the image is whole, and otherwise no part of it is. -/
def deliver (status : Word) (image : List Byte) : Option (List Byte) :=
  if status.getLsbD 2 = true ∧ status.extractLsb' 8 4 = 0#4 ∧ image.length = Config.cmapBytes then some image else none

end Sys2Proof.Machine
end

