-- ==== Sys2Proof/Safety.lean ====
section
/-! DEFINITION. What counts as a good state, in the terms the statements use: the invariant every step keeps, and the
host's duty to load the palette (spec/70_reset_and_hazards.md R130). -/

namespace Sys2Proof.Machine

/-- All 768 PAL bytes are written (R130). -/
def PaletteLoaded (s : State) : Prop := ∃ P, palette s.mem = some P

/-- CMAP holds the complete table for PAL as it stands: CMAP[y][x] = cell(PAL, y, x) for every cell (R27). -/
def TableRight (m : Memory) : Prop :=
  ∃ P, palette m = some P ∧ ∀ (y : Level) (x : Index), Memory.read m (cellAddr y x) = some (cell P y x)

/-- A host address of a byte the block stores: CMAP or PAL (R41). -/
abbrev Mapped (a : Nat) : Prop := a < Config.palEnd

/-! ### What a step from a state is -/

/-- The step performs this transaction as the host's next operation (R54, R58). -/
def Performs (s : State) (t : Txn) : Prop :=
  (nextTurn s).1 = .host ∧ s.rst = false ∧ ∃ op ops, s.host = op :: ops ∧ txnOf s op = some t

/-- The step performs a CMD write that is accepted as this command (R73). -/
def Accepts (s : State) (i : Instr) : Prop :=
  s.busy = false ∧ ∃ w, Performs s (.write 0x8004#16 4 w) ∧ decodeWord w = .ok i

/-- The step is the completion step of this command (R76). -/
def Completes (s : State) (i : Instr) : Prop :=
  (nextTurn s).1 = .core ∧ s.busy = true ∧ fetch s = .ok i

/-- The step asserts or releases reset (R127). -/
def IsReset (s : State) : Prop := ∃ b, (nextTurn s).1 = .reset b

/-- The next turn is the host's, and `rest` is the schedule after it: a scheduled turn, or the one that comes when the schedule
has run out and no command is in progress (log 2). -/
def HostIsNext (s : State) (rest : List Turn) : Prop :=
  s.sched = .host :: rest ∨ (s.sched = [] ∧ rest = [] ∧ s.busy = false)

/-- The operand stands for the word: it is the word, or a name (R71) whose latest binding is the word, or a name without a
binding, for which the word is any value. The last two are the model's choice (log 23). -/
def StandsFor (s : State) (o : Operand) (w : Word) : Prop :=
  o = .word w ∨ ∃ id, o = .name id ∧
    (s.names.lookup (.ident id) = some w ∨ s.names.lookup (.ident id) = none ∧ w = Config.unboundName s.draws id)

/-! ### Accesses and results as the rules word them -/

/-- The legal transactions, in the words of R45. -/
abbrev LegalAccess (a : Addr) (n : Nat) : Prop :=
  (n = 1 ∧ a.toNat < 0x4300) ∨
  (n = 4 ∧ a.toNat % 4 = 0 ∧ (a.toNat < 0x4300 ∨ (0x8000 ≤ a.toNat ∧ a.toNat ≤ 0x8018)))

/-- The address is in PAL (R41). -/
abbrev InPal (a : Nat) : Prop := 0x4000 ≤ a ∧ a < 0x4300

/-- The word packs the triple (r, g, b) dimmed at level y: each channel's byte is min(255, (v·(63−y)+16) / 32), and the top
byte is 0 (R92, R93, R13). -/
def DimmedWord (w : Word) (r g b : Byte) (y : Level) : Prop :=
  (w.extractLsb' 0 8).toNat = min 255 ((r.toNat * (63 - y.toNat) + 16) / 32) ∧
  (w.extractLsb' 8 8).toNat = min 255 ((g.toNat * (63 - y.toNat) + 16) / 32) ∧
  (w.extractLsb' 16 8).toNat = min 255 ((b.toNat * (63 - y.toNat) + 16) / 32) ∧
  w.extractLsb' 24 8 = 0#8

/-- The entry i of the palette is the nearest to t, the lowest such index, at distance d (R85). -/
def NearestEntry (P : Palette) (t : Triple) (i : Index) (d : Nat) : Prop :=
  sqdist t (P.get i) = d ∧ (∀ j : Index, d ≤ sqdist t (P.get j)) ∧ ∀ j : Index, j.toNat < i.toNat → d < sqdist t (P.get j)

/-! ### The invariant -/

/-- The invariant of the machine. It rules out states no run reaches: a busy machine with no command latched, a table
marked valid that is not, a memory out of its form. -/
structure Inv (s : State) : Prop where
  /-- Memory is in its canonical form. -/
  memCanonical : Memory.wf s.mem = true
  /-- Only CMAP and PAL hold bytes (R41). -/
  memMapped : ∀ c ∈ s.mem, Mapped c.1
  /-- A command in progress is one that Decode accepted (R73). -/
  latched : s.busy = true → ∃ i, fetch s = .ok i
  /-- BUSY and DONE are never both 1 (R73, R76, R133). -/
  notBusyAndDone : s.busy = true → s.done = false
  /-- CMAP_VALID is 0 while GEN is in progress (R27). -/
  validNotGenerating : s.cmapValid = true → generating s = false
  /-- When CMAP_VALID is 1 the table is right for the PAL contents in place (R27). -/
  validTable : s.cmapValid = true → TableRight s.mem
  /-- Only a GEN in progress has progress (R36). -/
  progressGenerating : s.genProgress ≠ [] → generating s = true
  /-- GEN progress is a set of cells: strictly rising addresses below 16384 (R33, R36). -/
  progressRising : s.genProgress.Pairwise (· < ·)
  progressCells : ∀ a ∈ s.genProgress, a < Config.cmapBytes
  /-- A cell the GEN in progress has written holds its final value (R104). -/
  progressRight : ∀ a ∈ s.genProgress, ∃ b, cellOf s.mem (levelOfCell a) (indexOfCell a) = some b ∧ Memory.read s.mem a = some b
  /-- MINDIST is a squared distance (R90). -/
  mindistRange : s.mindist.toNat ≤ 195075
  /-- While reset is asserted every piece of the block's state has its reset value (R127). -/
  resetHolds : s.rst = true → s = resetBlock true s

end Sys2Proof.Machine
end

