-- ==== Sys2Proof/Certificates/Slice0/Obligations.lean ====
section
/-! DEFINITION. The statements about the machine, from the numbered rules of spec/. Each docstring names the rules. -/

open Sys2Proof Sys2Proof.Machine

/-! ### Encoding (spec/30_encoding.md) -/

/-- R68 reads back what R70 writes: every command, with every operand, is decoded from its word, and from the word's four
bytes at the front of any list. -/
def Obligations.DecodeEncodeRoundTrip : Prop :=
  ∀ (i : Instr) (rest : List Byte),
    decodeWord (encode i) = .ok i ∧ decode (wordBytes (encode i) ++ rest) = .ok (i, rest)

/-- Each command has one word: a word that decodes is the word its command is encoded as. -/
def Obligations.DecodedWordIsItsEncoding : Prop :=
  ∀ (w : Word) (i : Instr), decodeWord w = .ok i → encode i = w

/-- R67: a word that selects a row of the opcode map decodes to that row's command, a word that selects none is illegal,
and no word selects two rows. -/
def Obligations.OpcodeMapRowsAreTheCommands : Prop :=
  ∀ w : Word,
    (∀ r ∈ opcodeTable, r.selects w → ∃ i, decodeWord w = .ok i ∧ i.mnemonic = r.mnemonic) ∧
    ((∀ r ∈ opcodeTable, ¬ r.selects w) → ∃ e, decodeWord w = .error e) ∧
    (∀ r ∈ opcodeTable, ∀ r' ∈ opcodeTable, r.selects w → r'.selects w → r = r')

/-- R66, R69: the illegal words are exactly those with OP 0x7-0xF, a reserved bit set, or an unused field nonzero. -/
def Obligations.IllegalWordsExactly : Prop :=
  ∀ w : Word, (∃ e, decodeWord w = .error e) ↔
    (7 ≤ (w.extractLsb' 0 4).toNat ∨ w.extractLsb' 4 4 ≠ 0#4 ∨ w.extractLsb' 14 2 ≠ 0#2 ∨ w.extractLsb' 24 8 ≠ 0#8 ∨
      (w.extractLsb' 8 6 ≠ 0#6 ∧ (w.extractLsb' 0 4).toNat ∈ [0, 1, 2, 6]) ∨
      (w.extractLsb' 16 8 ≠ 0#8 ∧ (w.extractLsb' 0 4).toNat ∈ [0, 2, 3, 6]))

/-- R70: the words command statements assemble to, as one write to CMD, and the operands the assembler rejects. R71: a name that a
read binds is an operand of the program's later statements; a program that uses a name before a read binds it is rejected (the
rejection is the model's choice, log 23). -/
def Obligations.AssemblerWords : Prop :=
  assemble .nop = some [.write (.word 0x8004#32) 4 (.word 0x00000000#32)] ∧
  assemble .matchTarget = some [.write (.word 0x8004#32) 4 (.word 0x00000002#32)] ∧
  assemble .gen = some [.write (.word 0x8004#32) 4 (.word 0x00000006#32)] ∧
  (∀ x, x < 256 → assemble (.dist x) = some [.write (.word 0x8004#32) 4 (.word (BitVec.ofNat 32 (x * 65536 + 1)))]) ∧
  (∀ y, y < 64 → assemble (.dim y) = some [.write (.word 0x8004#32) 4 (.word (BitVec.ofNat 32 (y * 256 + 3)))]) ∧
  (∀ y x, y < 64 → x < 256 →
    assemble (.dimp y x) = some [.write (.word 0x8004#32) 4 (.word (BitVec.ofNat 32 (x * 65536 + y * 256 + 4)))] ∧
    assemble (.quant y x) = some [.write (.word 0x8004#32) 4 (.word (BitVec.ofNat 32 (x * 65536 + y * 256 + 5)))]) ∧
  (∀ x, 256 ≤ x → assemble (.dist x) = none ∧ ∀ y, assemble (.dimp y x) = none ∧ assemble (.quant y x) = none) ∧
  (∀ y, 64 ≤ y → assemble (.dim y) = none ∧ ∀ x, assemble (.dimp y x) = none ∧ assemble (.quant y x) = none) ∧
  (∀ a b id, a < 65536 → b < 65536 →
    assembleProgram [.rd32 (.num a) (some id), .wr32 (.num b) (.name id)] =
      some [.read (.word (BitVec.ofNat 32 a)) 4 (some (.ident id)), .write (.word (BitVec.ofNat 32 b)) 4 (.name id)] ∧
    assembleProgram [.wr32 (.num b) (.name id), .rd32 (.num a) (some id)] = none)

/-- R68: words of spec/95_test_vectors.md 2.1 and what they decode to. -/
def Obligations.WordsOfTheSpecDecode : Prop :=
  decodeTableWord 32 0x00000000 = some .nop ∧ decodeTableWord 32 0x00050001 = some (.dist 5) ∧
  decodeTableWord 32 0x00000002 = some .matchTarget ∧ decodeTableWord 32 0x00002A03 = some (.dim 42) ∧
  decodeTableWord 32 0x00072004 = some (.dimp 32 7) ∧ decodeTableWord 32 0x00E03F05 = some (.quant 63 224) ∧
  decodeTableWord 32 0x00000006 = some .gen ∧ decodeTableWord 32 0x00000100 = none ∧
  decodeTableWord 32 0x80000006 = none ∧ decodeTableWord 32 0x00000007 = none

/-! ### The step (spec/40_command.md R76, spec/20_memory.md R58) -/

/-- R76: the core's turn in a busy state runs the latched command, decoded; so does a step of a busy state whose schedule has
run out (log 2). -/
def Obligations.StepRunsTheLatchedCommand : Prop :=
  ∀ (s : State) (i : Instr) (rest : List Turn), s.busy = true → fetch s = .ok i →
    (s.sched = .core :: rest → step s = exec i { s with sched := rest }) ∧
    (s.sched = [] → step s = exec i s)

/-- R58, R71, R127: a turn of the host performs the next read or write of its program, in program order, and nothing else; while
reset is asserted it performs nothing. `-> name` binds the value read, and a name may be an operand. The model's choices for what
R71 leaves open (log 23): a name stands for the value that the latest read bound to it, a name without a binding for any value; an
address beyond 16 bits leaves the block alone, and a name bound there has some value. When the schedule has run out and no command
is in progress the host's turn comes (the model's choice, log 2). In reset the program stays pending (log 12). The record of the
values read is the model's own (log 16). -/
def Obligations.HostTurnPerformsTheNextTransaction : Prop :=
  ∀ (s : State) (rest : List Turn) (ops : List HostOp) (oa : Operand) (w : Word) (n : Nat),
    HostIsNext s rest → StandsFor s oa w →
    (s.rst = true → step s = .next { s with sched := rest }) ∧
    (s.rst = false → ∀ a : Addr, w = a.setWidth 32 →
      (∀ ov v, s.host = .write oa n ov :: ops → StandsFor s ov v →
        step s = .next { hostWrite a n v { s with sched := rest } with host := ops }) ∧
      (∀ b, s.host = .read oa n b :: ops →
        ∃ t, step s = .next t ∧
          t = { (hostRead a n s).2 with
            sched := rest, host := ops, names := t.names, replies := (hostRead a n s).1 :: s.replies } ∧
          (b = none → t.names = s.names) ∧
          (∀ name, b = some name → t.names.lookup name = some (hostRead a n s).1 ∧
            ∀ other, other ≠ name → t.names.lookup other = s.names.lookup other))) ∧
    (s.rst = false → 65536 ≤ w.toNat →
      (∀ ov, s.host = .write oa n ov :: ops →
        ∃ t, step s = .next t ∧ t = { s with sched := rest, host := ops, draws := t.draws }) ∧
      (∀ b, s.host = .read oa n b :: ops →
        ∃ t, step s = .next t ∧ t = { s with sched := rest, host := ops, names := t.names, draws := t.draws } ∧
          (b = none → t.names = s.names) ∧
          (∀ name, b = some name → (t.names.lookup name).isSome = true ∧
            ∀ other, other ≠ name → t.names.lookup other = s.names.lookup other)))

/-- R72: WAIT reads STATUS, and stays the host's next operation exactly while the value read has BUSY = 1; it binds no name of the
program (the model's choice for the expansion's `s`, log 23). That the value of each poll is recorded in `replies` is the model's
own (log 16). -/
def Obligations.WaitPollsUntilNotBusy : Prop :=
  ∀ (s : State) (ops : List HostOp) (rest : List Turn), s.host = .wait :: ops → s.sched = .host :: rest → s.rst = false →
    step s = .next { s with
      sched := rest
      host := if s.busy then .wait :: ops else ops
      replies := statusWord s :: s.replies }

/-! ### Issue and acceptance (spec/40_command.md R73) -/

/-- R73, R35: a CMD write of a command's word while not busy latches the command and TARGET, clears DONE, sets BUSY, clears
CMAP_VALID for GEN, and changes nothing else (for GEN the run starts with no cell written); the core then fetches that
command. -/
def Obligations.AcceptanceLatchesTheCommand : Prop :=
  ∀ (s : State) (i : Instr), s.busy = false →
    ∃ t, hostWrite 0x8004#16 4 (encode i) s = t ∧ fetch t = .ok i ∧ t.curLevel = i.level ∧ t.curIndex = i.index ∧
      t.lt = s.target ∧ t.busy = true ∧ t.done = false ∧
      t.cmapValid = (if i = .gen then false else s.cmapValid) ∧
      t.genProgress = (if i = .gen then [] else s.genProgress) ∧
      t = { s with
        curOp := t.curOp, curLevel := t.curLevel, curIndex := t.curIndex, lt := t.lt, busy := t.busy, done := t.done
        cmapValid := t.cmapValid, genProgress := t.genProgress }

/-- R111: a CMD write while busy, whatever the word, sets ERR_BUSY (STATUS bit 9) and changes nothing else: the word is not
decoded and the command in progress goes on. -/
def Obligations.CommandWhileBusyIsDropped : Prop :=
  ∀ (s : State) (w : Word), s.busy = true →
    hostWrite 0x8004#16 4 w s = { s with errBusy := true } ∧
    (statusWord (hostWrite 0x8004#16 4 w s)).getLsbD 9 = true

/-- R110: a CMD write of a word that Decode rejects, while not busy, sets ERR_ILL (STATUS bit 8) and changes nothing else. -/
def Obligations.IllegalCommandIsDropped : Prop :=
  ∀ (s : State) (w : Word) (e : Reject), s.busy = false → decodeWord w = .error e →
    hostWrite 0x8004#16 4 w s = { s with errIll := true } ∧
    (statusWord (hostWrite 0x8004#16 4 w s)).getLsbD 8 = true

/-! ### Host accesses (spec/20_memory.md, spec/10_state.md) -/

/-- R45, R46: every access that is not legal raises ERR_ACC and does nothing else; a read returns 0. -/
def Obligations.BadAccessOnlyRaisesErrAcc : Prop :=
  ∀ (s : State) (a : Addr) (n : Nat), ¬ LegalAccess a n →
    hostRead a n s = (0#32, { s with errAcc := true }) ∧ ∀ v, hostWrite a n v s = { s with errAcc := true }

/-- R22, R44, R113: a write to CMAP, ID, RESULT or MINDIST raises ERR_ACC (STATUS bit 11) and does nothing else; a read of CMD
returns 0 and does nothing at all. -/
def Obligations.ReadOnlyPlacesRefuseWrites : Prop :=
  ∀ (s : State) (a : Addr) (n : Nat) (v : Word), LegalAccess a n →
    (a.toNat < 0x4000 ∨ a = 0x8000#16 ∨ a = 0x8014#16 ∨ a = 0x8018#16) →
    hostWrite a n v s = { s with errAcc := true } ∧ (statusWord (hostWrite a n v s)).getLsbD 11 = true ∧
    hostRead 0x8004#16 4 s = (0#32, s)

/-- R112, R50: a legal write to PAL while busy sets ERR_PALWR (STATUS bit 10); no byte is written, CMAP_VALID is unchanged, and
nothing else changes. -/
def Obligations.PaletteWriteWhileBusyIsRefused : Prop :=
  ∀ (s : State) (a : Addr) (n : Nat) (v : Word), LegalAccess a n → InPal a.toNat → s.busy = true →
    hostWrite a n v s = { s with errPalwr := true } ∧ (statusWord (hostWrite a n v s)).getLsbD 10 = true

/-- R51, R47: a legal write to PAL while not busy writes its n bytes, little-endian, and clears CMAP_VALID; every other byte
and everything else is unchanged. -/
def Obligations.PaletteWriteWhileIdle : Prop :=
  ∀ (s : State) (a : Addr) (n : Nat) (v : Word), LegalAccess a n → InPal a.toNat → s.busy = false →
    ∃ t, hostWrite a n v s = t ∧ t = { s with mem := t.mem, cmapValid := false } ∧
      (∀ k, k < n → Memory.read t.mem (a.toNat + k) = some (v.extractLsb' (8 * k) 8)) ∧
      (∀ a', (a' < a.toNat ∨ a.toNat + n ≤ a') → Memory.read t.mem a' = Memory.read s.mem a')

/-- R43, R44, R47, R52: a legal read of CMAP or PAL, no GEN being in progress where it is CMAP, returns every byte that is written
as it is stored, the one at the lowest address in bits 7:0. That the value of a byte read is a word with 0 above the byte is the
model's choice of the reply's width (log 15). -/
def Obligations.MemoryReadReturnsStoredBytes : Prop :=
  ∀ (s : State) (a : Addr) (n : Nat), LegalAccess a n → a.toNat < 0x4300 → (InPal a.toNat ∨ generating s = false) →
    (∀ k b, k < n → Memory.read s.mem (a.toNat + k) = some b → ((hostRead a n s).1).extractLsb' (8 * k) 8 = b) ∧
    (∀ k, n ≤ k → k < 4 → ((hostRead a n s).1).extractLsb' (8 * k) 8 = 0#8)

/-- The model's choice (log 5), for R53's "any value in each byte": a legal read of CMAP while GEN is in progress tells nothing of
the memory. It returns the same whatever the memory and the cells already written; its bytes are free values. -/
def Obligations.ReadDuringGenTellsNothing : Prop :=
  ∀ (s : State) (a : Addr) (n : Nat) (m : Memory) (p : List Nat), LegalAccess a n → a.toNat < 0x4000 → generating s = true →
    (hostRead a n s).1 = (hostRead a n { s with mem := m, genProgress := p }).1

/-- R23, R56: a legal read changes no register, no memory and nothing else of the block; only the model's own record of replies and
of free bytes drawn (log 5, log 16). -/
def Obligations.LegalReadHasNoSideEffect : Prop :=
  ∀ (s : State) (a : Addr) (n : Nat), LegalAccess a n →
    (hostRead a n s).2 = { s with draws := (hostRead a n s).2.draws } ∧
    hostTxn (.read a n) s =
      { s with draws := (hostTxn (.read a n) s).draws, replies := (hostRead a n s).1 :: s.replies }

/-- R20, R24-R30: what each register reads. -/
def Obligations.RegistersRead : Prop :=
  ∀ s : State,
    (hostRead 0x8000#16 4 s).1 = 0x434D0001#32 ∧
    (hostRead 0x8004#16 4 s).1 = 0#32 ∧
    (∀ k, ((hostRead 0x8008#16 4 s).1).getLsbD k =
      (if k = 0 then s.busy else if k = 1 then s.done else if k = 2 then s.cmapValid else if k = 8 then s.errIll
       else if k = 9 then s.errBusy else if k = 10 then s.errPalwr else if k = 11 then s.errAcc else false)) ∧
    (∀ k, ((hostRead 0x800C#16 4 s).1).getLsbD k =
      (if k = 0 then s.doneIe else if k = 1 then s.errIe else false)) ∧
    (((hostRead 0x8010#16 4 s).1).extractLsb' 0 8 = s.target.r ∧ ((hostRead 0x8010#16 4 s).1).extractLsb' 8 8 = s.target.g ∧
      ((hostRead 0x8010#16 4 s).1).extractLsb' 16 8 = s.target.b ∧ ((hostRead 0x8010#16 4 s).1).extractLsb' 24 8 = 0#8) ∧
    (hostRead 0x8014#16 4 s).1 = s.result ∧
    ((hostRead 0x8018#16 4 s).1).toNat = s.mindist.toNat

/-- R21: reserved bits read 0, and what is written to them is ignored without an error. -/
def Obligations.ReservedBitsReadZeroAndIgnoreWrites : Prop :=
  ∀ (s : State) (w : Word),
    (hostRead 0x8010#16 4 s).1 &&& 0xFF000000#32 = 0#32 ∧ (hostRead 0x800C#16 4 s).1 &&& 0xFFFFFFFC#32 = 0#32 ∧
    (hostRead 0x8008#16 4 s).1 &&& 0xFFFFF0F8#32 = 0#32 ∧ (hostRead 0x8018#16 4 s).1 &&& 0xFFFC0000#32 = 0#32 ∧
    hostWrite 0x8010#16 4 w s = hostWrite 0x8010#16 4 (w &&& 0x00FFFFFF#32) s ∧
    hostWrite 0x800C#16 4 w s = hostWrite 0x800C#16 4 (w &&& 0x00000003#32) s ∧
    hostWrite 0x8008#16 4 w s = hostWrite 0x8008#16 4 (w &&& 0x00000F07#32) s ∧
    (hostWrite 0x8010#16 4 w s).errAcc = s.errAcc ∧ (hostWrite 0x800C#16 4 w s).errAcc = s.errAcc ∧
    ((hostWrite 0x8008#16 4 w s).errAcc = true → s.errAcc = true)

/-- R26: a write of w to STATUS clears, of the bits 1, 8, 9, 10 and 11, those that are 1 in w; every other bit of STATUS and
everything else is unchanged. -/
def Obligations.StatusWriteOneClears : Prop :=
  ∀ (s : State) (w : Word), ∃ t, hostWrite 0x8008#16 4 w s = t ∧
    statusWord t = statusWord s &&& ~~~(w &&& 0x00000F02#32) ∧
    t = { s with done := t.done, errIll := t.errIll, errBusy := t.errBusy, errPalwr := t.errPalwr, errAcc := t.errAcc }

/-- R28, R29, R137: TARGET and IRQ_EN read back what was written but for the reserved bits; nothing else changes, the latched
copy of TARGET among it. -/
def Obligations.TargetAndEnablesReadBack : Prop :=
  ∀ (s : State) (w : Word),
    (hostRead 0x8010#16 4 (hostWrite 0x8010#16 4 w s)).1 = w &&& 0x00FFFFFF#32 ∧
    hostWrite 0x8010#16 4 w s = { s with target := (hostWrite 0x8010#16 4 w s).target } ∧
    (hostRead 0x800C#16 4 (hostWrite 0x800C#16 4 w s)).1 = w &&& 0x00000003#32 ∧
    hostWrite 0x800C#16 4 w s = { s with doneIe := w.getLsbD 0, errIe := w.getLsbD 1 }

/-- R72 (LOADPAL): its 192 writes, performed while not busy, store the image's bytes at 0x4000 onward, and nothing else in
memory changes. -/
def Obligations.LoadPalStoresTheImage : Prop :=
  ∀ (s : State) (image : List Byte) (ops : List HostOp), s.busy = false → assemble (.loadpal image) = some ops →
    ∃ t, ops.foldl (fun s op => opEffect op s) s = t ∧
      t = { s with mem := t.mem, cmapValid := false } ∧
      (∀ j, j < 768 → Memory.read t.mem (0x4000 + j) = image[j]?) ∧
      (∀ a, ¬ InPal a → Memory.read t.mem a = Memory.read s.mem a)

/-! ### Errors and the interrupt (spec/60_exceptions.md) -/

/-- R117: a transaction raises at most one error, in the order access, busy, decode: a misaligned or 1-byte CMD write while
busy raises ERR_ACC only, and an illegal word while busy ERR_BUSY only. -/
def Obligations.AtMostOneErrorPerTransaction : Prop :=
  ∀ (s : State) (x : Txn),
    ((if (hostTxn x s).errIll = s.errIll then 0 else 1) + (if (hostTxn x s).errBusy = s.errBusy then 0 else 1) +
      (if (hostTxn x s).errPalwr = s.errPalwr then 0 else 1) + (if (hostTxn x s).errAcc = s.errAcc then 0 else 1) ≤ 1 ∨
      ∃ w, x = .write 0x8008#16 4 w) ∧
    (∀ a n w, ¬ LegalAccess a n → hostTxn (.write a n w) s = { s with errAcc := true }) ∧
    (s.busy = true → ∀ w, hostTxn (.write 0x8004#16 4 w) s = { s with errBusy := true })

/-- R109: raising an error sets its bit, whether or not it was set, and changes nothing else. -/
def Obligations.RaiseSetsOnlyItsBit : Prop :=
  ∀ (e : Err) (s : State),
    statusWord (raise e s) = statusWord s ||| (1#32 <<< e.code) ∧
    raise e s = { s with
      errIll := (raise e s).errIll, errBusy := (raise e s).errBusy
      errPalwr := (raise e s).errPalwr, errAcc := (raise e s).errAcc } ∧
    raise e (raise e s) = raise e s

/-- R109-R113, R119: over every step, an error bit is set only by its own cause, and once set it stays until the host clears it
by writing one or reset clears it. -/
def Obligations.ErrorBitsHaveTheirCausesAndStick : Prop :=
  ∀ s t : State, step s = .next t →
    (s.errIll = false → t.errIll = true →
      s.busy = false ∧ ∃ w e, Performs s (.write 0x8004#16 4 w) ∧ decodeWord w = .error e) ∧
    (s.errBusy = false → t.errBusy = true → s.busy = true ∧ ∃ w, Performs s (.write 0x8004#16 4 w)) ∧
    (s.errPalwr = false → t.errPalwr = true →
      s.busy = true ∧ ∃ a n v, Performs s (.write a n v) ∧ LegalAccess a n ∧ InPal a.toNat) ∧
    (s.errAcc = false → t.errAcc = true →
      (∃ a n, Performs s (.read a n) ∧ ¬ LegalAccess a n) ∨
      (∃ a n v, Performs s (.write a n v) ∧
        (¬ LegalAccess a n ∨ a.toNat < 0x4000 ∨ a = 0x8000#16 ∨ a = 0x8014#16 ∨ a = 0x8018#16))) ∧
    (s.errIll = true → t.errIll = false → IsReset s ∨ ∃ w, Performs s (.write 0x8008#16 4 w) ∧ w.getLsbD 8 = true) ∧
    (s.errBusy = true → t.errBusy = false → IsReset s ∨ ∃ w, Performs s (.write 0x8008#16 4 w) ∧ w.getLsbD 9 = true) ∧
    (s.errPalwr = true → t.errPalwr = false → IsReset s ∨ ∃ w, Performs s (.write 0x8008#16 4 w) ∧ w.getLsbD 10 = true) ∧
    (s.errAcc = true → t.errAcc = false → IsReset s ∨ ∃ w, Performs s (.write 0x8008#16 4 w) ∧ w.getLsbD 11 = true)

/-- R116: the interrupt line, and what makes it fall: clearing its STATUS bits, or masking by IRQ_EN, which leaves STATUS as it
is; it is 0 after reset. -/
def Obligations.InterruptLine : Prop :=
  ∀ s : State,
    (irq s = true ↔
      (s.doneIe = true ∧ s.done = true) ∨
      (s.errIe = true ∧ (s.errIll = true ∨ s.errBusy = true ∨ s.errPalwr = true ∨ s.errAcc = true))) ∧
    irq (hostWrite 0x8008#16 4 0x00000F02#32 s) = false ∧
    irq (hostWrite 0x800C#16 4 0#32 s) = false ∧
    statusWord (hostWrite 0x800C#16 4 0#32 s) = statusWord s ∧
    irq State.reset = false

/-! ### The commands -/

/-- R78, R76: NOP completes in every state: BUSY is cleared and DONE set, and nothing else changes. -/
def Obligations.NopCompletes : Prop :=
  ∀ s : State, exec .nop s = .next { s with busy := false, done := true }

/-- R87, R83: DIST completes where the three bytes of its entry are written: RESULT is the squared distance between LT and the
entry, and but for BUSY and DONE nothing else changes. -/
def Obligations.DistCompletes : Prop :=
  ∀ (s : State) (x : Index) (r g b : Byte),
    Memory.read s.mem (0x4000 + 3 * x.toNat) = some r → Memory.read s.mem (0x4000 + 3 * x.toNat + 1) = some g →
    Memory.read s.mem (0x4000 + 3 * x.toNat + 2) = some b →
    ∃ t, exec (.dist x) s = .next t ∧ t = { s with result := t.result, busy := false, done := true } ∧
      (t.result.toNat : Int) =
        ((s.lt.r.toNat : Int) - r.toNat) ^ 2 + ((s.lt.g.toNat : Int) - g.toNat) ^ 2 + ((s.lt.b.toNat : Int) - b.toNat) ^ 2

/-- R88, R85: MATCH completes where the palette is loaded: RESULT is the lowest index of an entry nearest to LT and MINDIST its
distance, and but for BUSY and DONE nothing else changes. -/
def Obligations.MatchCompletes : Prop :=
  ∀ (s : State) (P : Palette), palette s.mem = some P →
    ∃ t, exec .matchTarget s = .next t ∧
      t = { s with result := t.result, mindist := t.mindist, busy := false, done := true } ∧
      ∃ i : Index, t.result = i.setWidth 32 ∧ NearestEntry P s.lt i t.mindist.toNat

/-- R96, R92: DIM completes in every state: RESULT is LT dimmed at the level, packed, and but for BUSY and DONE nothing else
changes. -/
def Obligations.DimCompletes : Prop :=
  ∀ (s : State) (y : Level),
    ∃ t, exec (.dim y) s = .next t ∧ t = { s with result := t.result, busy := false, done := true } ∧
      DimmedWord t.result s.lt.r s.lt.g s.lt.b y

/-- R97, R92: DIMP completes where the three bytes of its entry are written, for every index, fullbright ones too: RESULT is the
entry dimmed at the level, packed, and but for BUSY and DONE nothing else changes. -/
def Obligations.DimpCompletes : Prop :=
  ∀ (s : State) (y : Level) (x : Index) (r g b : Byte),
    Memory.read s.mem (0x4000 + 3 * x.toNat) = some r → Memory.read s.mem (0x4000 + 3 * x.toNat + 1) = some g →
    Memory.read s.mem (0x4000 + 3 * x.toNat + 2) = some b →
    ∃ t, exec (.dimp y x) s = .next t ∧ t = { s with result := t.result, busy := false, done := true } ∧
      DimmedWord t.result r g b y

/-- R102: QUANT of an index from 224 on completes in every state with the index itself, MINDIST unchanged; of an index below 224
it completes where the palette is loaded, RESULT and MINDIST being those of the search for the dimmed entry. Memory is not
written. -/
def Obligations.QuantCompletes : Prop :=
  ∀ (s : State) (y : Level) (x : Index),
    (224 ≤ x.toNat → exec (.quant y x) s = .next { s with result := x.setWidth 32, busy := false, done := true }) ∧
    (x.toNat < 224 → ∀ P, palette s.mem = some P →
      ∃ t, exec (.quant y x) s = .next t ∧
        t = { s with result := t.result, mindist := t.mindist, busy := false, done := true } ∧
        ∃ (i : Index) (d : Triple), t.result = i.setWidth 32 ∧
          DimmedWord (pack d) (P.get x).r (P.get x).g (P.get x).b y ∧ NearestEntry P d i t.mindist.toNat)

/-- R104, R76: GEN completes where the palette is loaded: CMAP_VALID is set, RESULT and MINDIST are unchanged, and but for BUSY and
DONE nothing else of the block changes but CMAP. The model's choice (log 11, for the open order of 93 U3): the completion step
itself writes every cell the run has not yet written, leaves every other byte, and empties GEN progress. -/
def Obligations.GenCompletes : Prop :=
  ∀ (s : State) (P : Palette), palette s.mem = some P →
    ∃ t, exec .gen s = .next t ∧
      t = { s with mem := t.mem, cmapValid := true, genProgress := [], busy := false, done := true } ∧
      (∀ (y : Level) (x : Index), Memory.read t.mem (256 * y.toNat + x.toNat) =
        if 256 * y.toNat + x.toNat ∈ s.genProgress then Memory.read s.mem (256 * y.toNat + x.toNat) else some (cell P y x)) ∧
      (∀ a, 16384 ≤ a → Memory.read t.mem a = Memory.read s.mem a)

/-- R100, R106: in a good state, the completion of GEN leaves in every cell of a fullbright column the index itself, and in
every other cell the lowest index of an entry nearest to the column's entry dimmed at the row's level. -/
def Obligations.GenLeavesTheWholeTable : Prop :=
  ∀ (s : State) (P : Palette), Inv s → Completes s .gen → palette s.mem = some P →
    ∃ t, step s = .next t ∧ palette t.mem = some P ∧ ∀ (y : Level) (x : Index),
      ∃ c : Index, Memory.read t.mem (256 * y.toNat + x.toNat) = some c ∧
        (224 ≤ x.toNat → c = x) ∧
        (x.toNat < 224 → ∃ (d : Triple) (n : Nat),
          DimmedWord (pack d) (P.get x).r (P.get x).g (P.get x).b y ∧ NearestEntry P d c n)

/-- R104, R36: the GEN in progress writes a cell's value once in the run, and with it no other byte, register or flag. A fullbright
cell needs no palette (R101); another needs it loaded. That a turn of the schedule writes one cell is how the model takes the open
order (log 11), and that a turn of a cell already written changes nothing is the model's choice (log 3). -/
def Obligations.GenWritesEachCellOnce : Prop :=
  ∀ (s : State) (y : Level) (x : Index) (rest : List Turn), s.sched = .cell y x :: rest → generating s = true →
    (256 * y.toNat + x.toNat ∈ s.genProgress → step s = .next { s with sched := rest }) ∧
    (∀ b : Byte, 256 * y.toNat + x.toNat ∉ s.genProgress →
      ((224 ≤ x.toNat ∧ b = x) ∨ ∃ P, palette s.mem = some P ∧ b = cell P y x) →
      ∃ t, step s = .next t ∧ t = { s with mem := t.mem, genProgress := t.genProgress, sched := rest } ∧
        Memory.read t.mem (256 * y.toNat + x.toNat) = some b ∧
        (∀ a, a ≠ 256 * y.toNat + x.toNat → Memory.read t.mem a = Memory.read s.mem a) ∧
        (∀ a, a ∈ t.genProgress ↔ a = 256 * y.toNat + x.toNat ∨ a ∈ s.genProgress))

/-- R31, R43: the palette the commands read is PAL: entry i is the bytes at 0x4000 + 3i, + 1 and + 2, as R, G and B. R40, R76 (92
D28, 93 U5): a completion never refuses, and it faults exactly where the command's result depends on a PAL byte that nothing has
written. That a read of such a byte faults is the spec's own advice to a model (log 4). -/
def Obligations.CompletionFaultsExactlyOnUnwrittenPal : Prop :=
  ∀ (i : Instr) (s : State),
    (∀ P, palette s.mem = some P ↔ ∀ k : Index,
      Memory.read s.mem (0x4000 + 3 * k.toNat) = some (P.get k).r ∧
      Memory.read s.mem (0x4000 + 3 * k.toNat + 1) = some (P.get k).g ∧
      Memory.read s.mem (0x4000 + 3 * k.toNat + 2) = some (P.get k).b) ∧
    (∀ r, exec i s ≠ .refused r) ∧
    ((∃ f, exec i s = .fault f) ↔ match i with
      | .nop => False
      | .dim _ => False
      | .dist x => ∃ c, c < 3 ∧ Memory.read s.mem (0x4000 + 3 * x.toNat + c) = none
      | .dimp _ x => ∃ c, c < 3 ∧ Memory.read s.mem (0x4000 + 3 * x.toNat + c) = none
      | .matchTarget => ∃ a, InPal a ∧ Memory.read s.mem a = none
      | .quant _ x => x.toNat < 224 ∧ ∃ a, InPal a ∧ Memory.read s.mem a = none
      | .gen => ∃ a, InPal a ∧ Memory.read s.mem a = none)

/-- R77, R30: what a command writes is a function of PAL, LT and the command. Of two states that agree on PAL and LT, if the
command completes in one it completes in the other, with the same RESULT and the same MINDIST where it writes them, and, for GEN,
the same table: every cell that neither run had written yet and, from good states, every cell, written already or not. A
register that the command does not write, and memory but for GEN, is what it was in each. -/
def Obligations.ResultsAreDetermined : Prop :=
  ∀ (i : Instr) (s s' t : State),
    (∀ a, InPal a → Memory.read s.mem a = Memory.read s'.mem a) → s.lt = s'.lt → exec i s = .next t →
    ∃ t', exec i s' = .next t' ∧
      (if i = .nop ∨ i = .gen then t.result = s.result ∧ t'.result = s'.result else t.result = t'.result) ∧
      ((i = .matchTarget ∨ ∃ y x, i = .quant y x ∧ x.toNat < 224) → t.mindist = t'.mindist) ∧
      (¬ (i = .matchTarget ∨ ∃ y x, i = .quant y x ∧ x.toNat < 224) → t.mindist = s.mindist ∧ t'.mindist = s'.mindist) ∧
      (i ≠ .gen → t.mem = s.mem ∧ t'.mem = s'.mem) ∧
      (i = .gen → ∀ a, a < 16384 →
        (a ∉ s.genProgress ∧ a ∉ s'.genProgress) ∨ (Inv s ∧ Inv s') → Memory.read t.mem a = Memory.read t'.mem a)

/-- R103, R75, R77: the order in which GEN's cells are written cannot be observed. From a good state in which GEN is in progress,
any sequence of cell turns and then the completion end in the very state that the completion alone ends in (log 11: how the model
takes GEN's cell writes). -/
def Obligations.GenOrderIsUnobservable : Prop :=
  ∀ (s : State) (cells : List (Level × Index)), Inv s → generating s = true → PaletteLoaded s →
    ∃ t, Host.Core.run Sys2Proof.core (cells.length + 1)
        { s with sched := cells.map (fun c => Turn.cell c.1 c.2) ++ [.core] } = .next t ∧
      step { s with sched := [.core] } = .next t

/-! ### The functions (spec/41_matcher.md, spec/42_dimmer.md, spec/43_generator.md) -/

/-- R83, R91, R9: the squared distance is exact: the sum of the lanes' squared signed differences, at most 195075, which 18 bits
hold. -/
def Obligations.SquaredDistanceIsExact : Prop :=
  ∀ t p : Triple,
    (sqdist t p : Int) = ((t.r.toNat : Int) - p.r.toNat) ^ 2 + ((t.g.toNat : Int) - p.g.toNat) ^ 2 +
      ((t.b.toNat : Int) - p.b.toNat) ^ 2 ∧
    sqdist t p ≤ 195075 ∧ sqdist ⟨0#8, 0#8, 0#8⟩ ⟨255#8, 255#8, 255#8⟩ = 195075 ∧ 195075 < 2 ^ 18

/-- R84, R85, R86: the search returns the least distance over all 256 entries and the lowest index at that distance. -/
def Obligations.SearchFindsTheFirstNearest : Prop :=
  ∀ (P : Palette) (t : Triple),
    IsLeast { d : Nat | ∃ j : Index, d = sqdist t (P.get j) } (nearest P t).2 ∧
    IsLeast { n : Nat | ∃ j : Index, j.toNat = n ∧ sqdist t (P.get j) = (nearest P t).2 } (nearest P t).1

/-- R7: the entry nearest by Euclidean distance is the one nearest by squared distance, ties included. -/
def Obligations.EuclideanNearestIsTheSame : Prop :=
  ∀ (P : Palette) (t : Triple),
    IsLeast { n : Nat | ∃ j : Index, j.toNat = n ∧
      ∀ k : Index, Real.sqrt (sqdist t (P.get j) : ℝ) ≤ Real.sqrt (sqdist t (P.get k) : ℝ) } (nearest P t).1

/-- R89: searching for an entry of the palette finds the smallest index that holds it, at distance 0. -/
def Obligations.SelfMatch : Prop :=
  ∀ (P : Palette) (i : Index),
    (nearest P (P.get i)).2 = 0 ∧
    IsLeast { n : Nat | ∃ j : Index, j.toNat = n ∧ P.get j = P.get i } (nearest P (P.get i)).1 ∧
    ((∀ j k : Index, P.get j = P.get k → j = k) → (nearest P (P.get i)).1 = i.toNat)

/-- R90: the ranges of a search's index and distance. -/
def Obligations.SearchRange : Prop :=
  ∀ (P : Palette) (t : Triple), (nearest P t).1 ≤ 255 ∧ (nearest P t).2 ≤ 195075

/-- R94: the dimmer scales by (63−y)/32, rounding halves up, and clamps to 255; the clamp acts only for y ≤ 30, where
v·(63−y) ≥ 8176, and at y = 0 exactly for v ≥ 130. -/
def Obligations.DimmerScalesAndRounds : Prop :=
  (∀ (v : Byte) (y : Level),
    ((dim1 v y).toNat : Int) = min 255 ⌊((v.toNat : ℚ) * (63 - y.toNat : ℚ)) / 32 + 1 / 2⌋ ∧
    (255 < (v.toNat * (63 - y.toNat) + 16) / 32 → y.toNat ≤ 30 ∧ 8176 ≤ v.toNat * (63 - y.toNat))) ∧
  (∀ v : Byte, 255 ≤ (v.toNat * 63 + 16) / 32 ↔ 130 ≤ v.toNat) ∧
  dim1 16#8 62#6 = 1#8 ∧ dim1 129#8 0#6 = 254#8 ∧ dim1 130#8 0#6 = 255#8

/-- R95: the dimmer is non-increasing in the level and non-decreasing in the channel; it is not strictly decreasing: it is
constant 0 for v = 0, and constant 255 while the clamp acts, for v = 200 at the levels 0 to 22. -/
def Obligations.DimmerIsMonotone : Prop :=
  (∀ (v : Byte) (y y' : Level), y'.toNat = y.toNat + 1 → (dim1 v y').toNat ≤ (dim1 v y).toNat) ∧
  (∀ (v v' : Byte) (y : Level), v.toNat ≤ v'.toNat → (dim1 v y).toNat ≤ (dim1 v' y).toNat) ∧
  (∃ (v : Byte) (y y' : Level), y'.toNat = y.toNat + 1 ∧ dim1 v y' = dim1 v y) ∧
  (∀ y : Level, dim1 0#8 y = 0#8) ∧
  (∀ (v : Byte) (y : Level), 255 ≤ (v.toNat * (63 - y.toNat) + 16) / 32 → dim1 v y = 255#8) ∧
  (∀ y : Level, y.toNat ≤ 22 → dim1 200#8 y = 255#8)

/-- R98: the special light levels. -/
def Obligations.DimmerSpecialLevels : Prop :=
  (∀ v : Byte, dim1 v 31#6 = v ∧ dim1 v 63#6 = 0#8 ∧ (dim1 v 62#6).toNat = (v.toNat + 16) / 32 ∧
    (v.toNat ≤ 15 → dim1 v 62#6 = 0#8) ∧ (16 ≤ v.toNat → v.toNat ≤ 47 → dim1 v 62#6 = 1#8)) ∧
  (∀ y : Level, dim1 0#8 y = 0#8) ∧ dim1 255#8 0#6 = 255#8 ∧ (255 * (63 - 0) + 16) / 32 = 502 ∧ dim1 255#8 62#6 = 8#8

/-- R101: a fullbright column holds its own index at every level, whatever the palette. -/
def Obligations.FullbrightIdentity : Prop :=
  ∀ (P : Palette) (y : Level) (x : Index), 224 ≤ x.toNat → x.toNat ≤ 255 → cell P y x = x

/-! ### Reset (spec/70_reset_and_hazards.md) -/

/-- R39: what the registers and the memories are after reset, as the host reads them. -/
def Obligations.ResetValues : Prop :=
  (hostRead 0x8000#16 4 State.reset).1 = 0x434D0001#32 ∧ (hostRead 0x8008#16 4 State.reset).1 = 0#32 ∧
  (hostRead 0x800C#16 4 State.reset).1 = 0#32 ∧ (hostRead 0x8010#16 4 State.reset).1 = 0#32 ∧
  (hostRead 0x8014#16 4 State.reset).1 = 0#32 ∧ (hostRead 0x8018#16 4 State.reset).1 = 0#32 ∧
  State.reset.busy = false ∧ State.reset.genProgress = [] ∧ irq State.reset = false ∧
  ∀ a, Memory.read State.reset.mem a = none

/-- R127-R129: a reset turn, in any state, a command in progress or not, abandons the command without its completion, gives every
register its reset value and leaves every byte of PAL and CMAP unwritten; the host's pending program is not the block's and stays
(the model's choice, log 12). -/
def Obligations.ResetTurnResetsTheBlock : Prop :=
  ∀ (s : State) (b : Bool) (rest : List Turn), s.sched = .reset b :: rest →
    ∃ t, step s = .next t ∧ statusWord t = 0#32 ∧ irqEnWord t = 0#32 ∧ pack t.target = 0#32 ∧ t.result = 0#32 ∧ t.mindist = 0#18 ∧
      t.busy = false ∧ t.done = false ∧ irq t = false ∧ t.genProgress = [] ∧ (∀ a, Memory.read t.mem a = none) ∧
      t.host = s.host ∧ t.rst = b

/-! ### Rules of the whole machine -/

/-- The invariant holds right after reset. -/
def Obligations.ResetIsGood : Prop := Inv State.reset

/-- Every step keeps the invariant, from every state that has it. -/
def Obligations.StepKeepsInvariant : Prop := ∀ s t : State, Inv s → step s = .next t → Inv t

/-- R76, R130 (92 D28): from a good state a step never refuses, and it faults only where the core reads PAL before all of it is
written; with the palette loaded every step has a next state. The fault is that of log 4. -/
def Obligations.GoodStatesStep : Prop :=
  ∀ s : State, Inv s →
    (∀ r, step s ≠ .refused r) ∧
    (∀ f, step s = .fault f → f = .unwrittenPal ∧ s.busy = true ∧ ¬ PaletteLoaded s) ∧
    (PaletteLoaded s → ∃ t, step s = .next t)

/-- R33, R55, R31, R32: over every step, a byte of CMAP changes only by GEN in progress or reset, a byte of PAL only by a PAL write
of the host while not busy or reset, and no byte outside CMAP and PAL changes. -/
def Obligations.MemoryChangesOnlyByItsWriter : Prop :=
  ∀ (s t : State) (a : Nat), step s = .next t → Memory.read t.mem a ≠ Memory.read s.mem a →
    IsReset s ∨
    (a < 0x4000 ∧ (Completes s .gen ∨ (generating s = true ∧ ∃ y x, (nextTurn s).1 = .cell y x ∧ a = 256 * y.toNat + x.toNat))) ∨
    (InPal a ∧ s.busy = false ∧ ∃ b n v, Performs s (.write b n v) ∧ b.toNat ≤ a ∧ a < b.toNat + n)

/-- R30, R136: over every step, RESULT changes only at the completion of DIST, MATCH, DIM, DIMP or QUANT, MINDIST only at that of
MATCH or of QUANT of an index below 224, and either at reset. -/
def Obligations.ResultsChangeOnlyAtCompletion : Prop :=
  ∀ s t : State, step s = .next t →
    (t.result ≠ s.result → IsReset s ∨ ∃ i, Completes s i ∧ i ≠ .nop ∧ i ≠ .gen) ∧
    (t.mindist ≠ s.mindist →
      IsReset s ∨ Completes s .matchTarget ∨ ∃ y x, x.toNat < 224 ∧ Completes s (.quant y x))

/-- R38, R27: over every step, what sets and what clears BUSY, DONE and CMAP_VALID. -/
def Obligations.StatusBitsHaveTheirCauses : Prop :=
  ∀ s t : State, step s = .next t →
    (s.busy = false → t.busy = true → ∃ i, Accepts s i) ∧
    (s.busy = true → t.busy = false → IsReset s ∨ ∃ i, Completes s i) ∧
    (s.done = false → t.done = true → ∃ i, Completes s i) ∧
    (s.done = true → t.done = false →
      IsReset s ∨ (∃ i, Accepts s i) ∨ ∃ w, Performs s (.write 0x8008#16 4 w) ∧ w.getLsbD 1 = true) ∧
    (s.cmapValid = false → t.cmapValid = true → Completes s .gen) ∧
    (s.cmapValid = true → t.cmapValid = false →
      IsReset s ∨ Accepts s .gen ∨
      (s.busy = false ∧ ∃ a n v, Performs s (.write a n v) ∧ LegalAccess a n ∧ InPal a.toNat))

/-- R133: a poll cannot miss a completion: once BUSY or DONE is 1, one of them stays 1 until the host clears DONE or reset comes. -/
def Obligations.PollCannotMissACompletion : Prop :=
  ∀ s t : State, step s = .next t → (s.busy = true ∨ s.done = true) →
    (t.busy = true ∨ t.done = true) ∨ IsReset s ∨ ∃ w, Performs s (.write 0x8008#16 4 w) ∧ w.getLsbD 1 = true

/-- R140, R76: completion is guaranteed: from a good state with a command in progress and the palette loaded, whatever the
schedule and the host's program, the command's run has ended after at most one step more than the schedule is long. The bound
is the model's: how it takes weak fairness (log 2). -/
def Obligations.CompletionIsGuaranteed : Prop :=
  ∀ s : State, Inv s → s.busy = true → PaletteLoaded s →
    ∃ k t, k ≤ s.sched.length + 1 ∧ Host.Core.run Sys2Proof.core k s = .next t ∧ t.busy = false

/-- R27, R44, R47: in a good state with CMAP_VALID = 1 a word the host reads from CMAP is four cells of the table for the palette
in place, the lowest column in bits 7:0. -/
def Obligations.ValidTableReadsAsTheCells : Prop :=
  ∀ (s : State) (a : Addr), Inv s → s.cmapValid = true → a.toNat < 0x4000 → a.toNat % 4 = 0 →
    ∃ P, palette s.mem = some P ∧ ∀ k, k < 4 →
      ((hostRead a 4 s).1).extractLsb' (8 * k) 8 =
        cell P (BitVec.ofNat 6 (a.toNat / 256)) (BitVec.ofNat 8 (a.toNat % 256 + k))
end

