-- ==== Sys2Proof/Laws/Bits.lean ====
section
/-! SUPPORT. Laws of the words: the fields of a command word, the bytes of a word, packed triples, and the bits of the
registers that are made of flags. -/

namespace Sys2Proof

/-! ### Fields of a command word (R64) -/

@[simp] theorem opField_cmdWord (op : BitVec 4) (lvl : Level) (idx : Index) : opField (cmdWord op lvl idx) = op := by
  refine BitVec.eq_of_getLsbD_eq fun i hi => ?_
  interval_cases i <;> simp [opField, cmdWord]

@[simp] theorem rsv0Field_cmdWord (op : BitVec 4) (lvl : Level) (idx : Index) : rsv0Field (cmdWord op lvl idx) = 0#4 := by
  refine BitVec.eq_of_getLsbD_eq fun i hi => ?_
  interval_cases i <;> simp [rsv0Field, cmdWord]

@[simp] theorem levelField_cmdWord (op : BitVec 4) (lvl : Level) (idx : Index) : levelField (cmdWord op lvl idx) = lvl := by
  refine BitVec.eq_of_getLsbD_eq fun i hi => ?_
  interval_cases i <;> simp [levelField, cmdWord]

@[simp] theorem rsv1Field_cmdWord (op : BitVec 4) (lvl : Level) (idx : Index) : rsv1Field (cmdWord op lvl idx) = 0#2 := by
  refine BitVec.eq_of_getLsbD_eq fun i hi => ?_
  interval_cases i <;> simp [rsv1Field, cmdWord]

@[simp] theorem indexField_cmdWord (op : BitVec 4) (lvl : Level) (idx : Index) : indexField (cmdWord op lvl idx) = idx := by
  refine BitVec.eq_of_getLsbD_eq fun i hi => ?_
  interval_cases i <;> simp [indexField, cmdWord]

@[simp] theorem rsv2Field_cmdWord (op : BitVec 4) (lvl : Level) (idx : Index) : rsv2Field (cmdWord op lvl idx) = 0#8 := by
  refine BitVec.eq_of_getLsbD_eq fun i hi => ?_
  interval_cases i <;> simp [rsv2Field, cmdWord]

/-- A word whose reserved fields are 0 is made of its other fields. -/
theorem cmdWord_of_fields {w : Word} (h0 : rsv0Field w = 0#4) (h1 : rsv1Field w = 0#2) (h2 : rsv2Field w = 0#8) :
    cmdWord (opField w) (levelField w) (indexField w) = w := by
  have z0 : ∀ i, (rsv0Field w).getLsbD i = false := fun i => by simp [h0]
  have z1 : ∀ i, (rsv1Field w).getLsbD i = false := fun i => by simp [h1]
  have z2 : ∀ i, (rsv2Field w).getLsbD i = false := fun i => by simp [h2]
  simp only [rsv0Field, rsv1Field, rsv2Field, BitVec.getLsbD_extractLsb'] at z0 z1 z2
  refine BitVec.eq_of_getLsbD_eq fun i hi => ?_
  have a := z0 (i - 4)
  have b := z1 (i - 14)
  have c := z2 (i - 24)
  interval_cases i <;> simp_all [cmdWord, opField, levelField, indexField]

/-! ### Bytes of a word (R47) -/

theorem byteOfWord_wordOfBytes (b0 b1 b2 b3 : Byte) :
    byteOfWord (wordOfBytes b0 b1 b2 b3) 0 = b0 ∧ byteOfWord (wordOfBytes b0 b1 b2 b3) 1 = b1 ∧
      byteOfWord (wordOfBytes b0 b1 b2 b3) 2 = b2 ∧ byteOfWord (wordOfBytes b0 b1 b2 b3) 3 = b3 := by
  refine ⟨?_, ?_, ?_, ?_⟩ <;>
    (refine BitVec.eq_of_getLsbD_eq fun i hi => ?_
     interval_cases i <;> simp [byteOfWord, wordOfBytes])

/-- A word is its four bytes. -/
theorem wordOfBytes_byteOfWord (w : Word) :
    wordOfBytes (byteOfWord w 0) (byteOfWord w 1) (byteOfWord w 2) (byteOfWord w 3) = w := by
  refine BitVec.eq_of_getLsbD_eq fun i hi => ?_
  interval_cases i <;> simp [byteOfWord, wordOfBytes]

theorem decode_wordBytes (w : Word) (rest : List Byte) :
    decode (wordBytes w ++ rest) = (decodeWord w).map fun i => (i, rest) := by
  simp [wordBytes, decode, wordOfBytes_byteOfWord]

end Sys2Proof

namespace Sys2Proof.Machine

/-! ### Packed triples (R13, R29) -/

@[simp] theorem unpack_pack (t : Triple) : unpack (pack t) = t := by
  simp [unpack, pack, byteOfWord_wordOfBytes]

theorem pack_unpack (w : Word) : pack (unpack w) = w &&& 0x00FFFFFF#32 := by
  refine BitVec.eq_of_getLsbD_eq fun i hi => ?_
  interval_cases i <;> simp [pack, unpack, byteOfWord, wordOfBytes]

/-! ### Registers made of flags (R26, R28) -/

theorem getLsbD_flagAt (b : Bool) {k : Nat} (hk : k < 32) (i : Nat) : (flagAt b k).getLsbD i = (b && decide (i = k)) := by
  cases b
  · simp [flagAt]
  · by_cases h : i = k
    · subst h; simp [flagAt, hk]
    · by_cases h' : i < k
      · simp [flagAt, h, h']
      · have : i - k ≠ 0 := by omega
        simp [flagAt, h, this]

/-- Bit i of STATUS (R26). -/
theorem getLsbD_statusWord (s : State) (i : Nat) :
    (statusWord s).getLsbD i =
      ((s.busy && decide (i = 0)) || (s.done && decide (i = 1)) || (s.cmapValid && decide (i = 2))
        || (s.errIll && decide (i = 8)) || (s.errBusy && decide (i = 9)) || (s.errPalwr && decide (i = 10))
        || (s.errAcc && decide (i = 11))) := by
  simp [statusWord, Err.code, getLsbD_flagAt]

/-- Bit i of IRQ_EN (R28). -/
theorem getLsbD_irqEnWord (s : State) (i : Nat) :
    (irqEnWord s).getLsbD i = ((s.doneIe && decide (i = 0)) || (s.errIe && decide (i = 1))) := by
  simp [irqEnWord, getLsbD_flagAt]

end Sys2Proof.Machine
end

