-- ==== Sys2Proof/Laws/Memory.lean ====
section
/-! SUPPORT. Laws of byte memory: read after write, the canonical form, equal reads make equal canonical memories; and of
the strictly rising lists that hold GEN progress. -/

namespace Sys2Proof.Machine

/-! ### Read after write -/

theorem Memory.read_write (m : Memory) (a a' : Nat) (b : Byte) :
    Memory.read (Memory.write m a b) a' = if a' = a then some b else Memory.read m a' := by
  induction m with
  | nil => simp [Memory.read, Memory.write, eq_comm]
  | cons c m ih =>
    obtain ⟨k, v⟩ := c
    unfold Memory.write
    split
    · simp only [Memory.read, eq_comm]
    · split
      · rename_i hak
        subst hak
        by_cases h : a = a'
        · simp [Memory.read, h]
        · rw [if_neg (Ne.symm h)]
          simp [Memory.read, h]
      · rename_i hak
        by_cases hk : k = a'
        · subst hk
          rw [if_neg (fun e : k = a => hak e.symm)]
          simp [Memory.read]
        · simp [Memory.read, hk, ih]

@[simp] theorem Memory.read_write_same (m : Memory) (a : Nat) (b : Byte) :
    Memory.read (Memory.write m a b) a = some b := by simp [Memory.read_write]

theorem Memory.read_write_other (m : Memory) {a a' : Nat} (b : Byte) (h : a' ≠ a) :
    Memory.read (Memory.write m a b) a' = Memory.read m a' := by simp [Memory.read_write, h]

/-! ### The canonical form -/

/-- The canonical form is: every address is below all the later ones. -/
theorem Memory.wf_iff_pairwise (m : Memory) : Memory.wf m = true ↔ m.Pairwise fun c d => c.1 < d.1 := by
  induction m with
  | nil => simp [Memory.wf]
  | cons c m ih =>
    obtain ⟨a, v⟩ := c
    cases m with
    | nil => simp [Memory.wf]
    | cons d m =>
      obtain ⟨b, w⟩ := d
      simp only [Memory.wf, Bool.and_eq_true, decide_eq_true_eq, ih]
      constructor
      · rintro ⟨hab, h⟩
        refine List.pairwise_cons.2 ⟨fun e he => ?_, h⟩
        rcases List.mem_cons.1 he with rfl | he
        · exact hab
        · exact hab.trans ((List.pairwise_cons.1 h).1 e he)
      · intro h
        exact ⟨(List.pairwise_cons.1 h).1 _ (List.mem_cons_self ..), (List.pairwise_cons.1 h).2⟩

theorem Memory.mem_write {m : Memory} {a : Nat} {b : Byte} {c : Host.Cell} (h : c ∈ Memory.write m a b) :
    c = (a, b) ∨ c ∈ m := by
  induction m with
  | nil => simpa [Memory.write] using h
  | cons d m ih =>
    obtain ⟨k, v⟩ := d
    unfold Memory.write at h
    split at h
    · simpa using h
    · split at h
      · rcases List.mem_cons.1 h with h | h
        · exact .inl h
        · exact .inr (List.mem_cons_of_mem _ h)
      · rcases List.mem_cons.1 h with h | h
        · exact .inr (h ▸ List.mem_cons_self ..)
        · exact (ih h).imp_right (List.mem_cons_of_mem _)

/-- A write keeps the canonical form. -/
theorem Memory.wf_write {m : Memory} (h : Memory.wf m = true) (a : Nat) (b : Byte) :
    Memory.wf (Memory.write m a b) = true := by
  rw [Memory.wf_iff_pairwise] at *
  induction m with
  | nil => simp [Memory.write]
  | cons d m ih =>
    obtain ⟨k, v⟩ := d
    obtain ⟨hk, hm⟩ := List.pairwise_cons.1 h
    unfold Memory.write
    split
    · rename_i hak
      refine List.pairwise_cons.2 ⟨fun c hc => ?_, h⟩
      rcases List.mem_cons.1 hc with rfl | hc
      · exact hak
      · exact Nat.lt_trans hak (hk c hc)
    · split
      · rename_i _ hak
        subst hak
        exact List.pairwise_cons.2 ⟨hk, hm⟩
      · refine List.pairwise_cons.2 ⟨fun c hc => ?_, ih hm⟩
        rcases Memory.mem_write hc with rfl | hc
        · show k < a
          omega
        · exact hk c hc

/-- A listed address reads as a value. -/
theorem Memory.read_isSome_of_mem {m : Memory} {c : Host.Cell} (h : c ∈ m) : ∃ b, Memory.read m c.1 = some b := by
  induction m with
  | nil => cases h
  | cons d m ih =>
    obtain ⟨k, v⟩ := d
    by_cases hk : k = c.1
    · exact ⟨v, by simp [Memory.read, hk]⟩
    · rcases List.mem_cons.1 h with rfl | h
      · exact absurd rfl hk
      · obtain ⟨b, hb⟩ := ih h
        exact ⟨b, by simp [Memory.read, hk, hb]⟩

theorem Memory.mem_of_read {m : Memory} {a : Nat} {b : Byte} (h : Memory.read m a = some b) : (a, b) ∈ m := by
  induction m with
  | nil => cases h
  | cons d m ih =>
    obtain ⟨k, v⟩ := d
    by_cases hk : k = a
    · subst hk
      simp only [Memory.read, if_true, Option.some.injEq] at h
      exact h ▸ List.mem_cons_self ..
    · simp only [Memory.read, hk, if_false] at h
      exact List.mem_cons_of_mem _ (ih h)

/-- In a canonical memory an address below all listed ones is unwritten. -/
theorem Memory.read_none_of_lt {m : Memory} {a : Nat} (h : ∀ c ∈ m, a < c.1) : Memory.read m a = none := by
  cases hr : Memory.read m a with
  | none => rfl
  | some b => exact absurd (h _ (Memory.mem_of_read hr)) (Nat.lt_irrefl a)

/-- Canonical memories that read alike are equal. -/
theorem Memory.ext_of_read {m m' : Memory} (h : Memory.wf m = true) (h' : Memory.wf m' = true)
    (hr : ∀ a, Memory.read m a = Memory.read m' a) : m = m' := by
  rw [Memory.wf_iff_pairwise] at h h'
  induction m generalizing m' with
  | nil =>
    cases m' with
    | nil => rfl
    | cons c m' => obtain ⟨k, v⟩ := c; simpa [Memory.read] using hr k
  | cons c m ih =>
    obtain ⟨k, v⟩ := c
    cases m' with
    | nil => simpa [Memory.read] using hr k
    | cons d m' =>
      obtain ⟨l, w⟩ := d
      obtain ⟨hk, hm⟩ := List.pairwise_cons.1 h
      obtain ⟨hl, hm'⟩ := List.pairwise_cons.1 h'
      have hkl : k = l := by
        rcases Nat.lt_trichotomy k l with hlt | heq | hgt
        · have := hr k
          have hn : Memory.read m' k = none :=
            Memory.read_none_of_lt fun c hc => Nat.lt_trans hlt (hl c hc)
          simp [Memory.read, hn, Nat.ne_of_gt hlt] at this
        · exact heq
        · have := hr l
          have hn : Memory.read m l = none :=
            Memory.read_none_of_lt fun c hc => Nat.lt_trans hgt (hk c hc)
          simp [Memory.read, hn, Nat.ne_of_gt hgt] at this
      subst hkl
      have hvw : v = w := by simpa [Memory.read] using hr k
      subst hvw
      refine congrArg _ (ih hm hm' fun a => ?_)
      by_cases ha : a = k
      · subst ha
        rw [Memory.read_none_of_lt hk, Memory.read_none_of_lt hl]
      · have hka : ¬ k = a := fun e => ha e.symm
        simpa [Memory.read, hka] using hr a

/-! ### Host writes -/

theorem writeMem_wf {m : Memory} (h : Memory.wf m = true) (a n : Nat) (v : Word) : Memory.wf (writeMem m a n v) = true := by
  unfold writeMem
  split
  · exact Memory.wf_write h _ _
  · exact Memory.wf_write (Memory.wf_write (Memory.wf_write (Memory.wf_write h _ _) _ _) _ _) _ _

/-- Every byte a write of n bytes (1 or 4) moves, and every byte it leaves alone. -/
theorem read_writeMem (m : Memory) (a n : Nat) (v : Word) (hn : n = 1 ∨ n = 4) (a' : Nat) :
    Memory.read (writeMem m a n v) a' =
      if a ≤ a' ∧ a' < a + n then some (byteOfWord v (a' - a)) else Memory.read m a' := by
  rcases hn with rfl | rfl
  · by_cases h : a' = a
    · subst h; simp [writeMem]
    · rw [if_neg (by omega : ¬ (a ≤ a' ∧ a' < a + 1))]
      simp [writeMem, Memory.read_write, h]
  · by_cases h : a ≤ a' ∧ a' < a + 4
    · obtain ⟨k, rfl⟩ := Nat.exists_eq_add_of_le h.1
      have hk : k < 4 := by omega
      interval_cases k <;> simp [writeMem, Memory.read_write]
    · have h0 : ¬ a' = a := by omega
      have h1 : ¬ a' = a + 1 := by omega
      have h2 : ¬ a' = a + 2 := by omega
      have h3 : ¬ a' = a + 3 := by omega
      simp [writeMem, Memory.read_write, h, h0, h1, h2, h3]

/-! ### Strictly rising lists -/

theorem mem_insertRising {a x : Nat} {l : List Nat} : x ∈ insertRising a l ↔ x = a ∨ x ∈ l := by
  induction l with
  | nil => simp [insertRising]
  | cons k l ih =>
    unfold insertRising
    split
    · simp
    · split
      · subst_vars; simp
      · simp only [List.mem_cons, ih]; tauto

theorem insertRising_rising {a : Nat} {l : List Nat} (h : l.Pairwise (· < ·)) : (insertRising a l).Pairwise (· < ·) := by
  induction l with
  | nil => simp [insertRising]
  | cons k l ih =>
    obtain ⟨hk, hl⟩ := List.pairwise_cons.1 h
    unfold insertRising
    split
    · rename_i hak
      refine List.pairwise_cons.2 ⟨fun x hx => ?_, h⟩
      rcases List.mem_cons.1 hx with rfl | hx
      · exact hak
      · exact Nat.lt_trans hak (hk x hx)
    · split
      · subst_vars; exact h
      · refine List.pairwise_cons.2 ⟨fun x hx => ?_, ih hl⟩
        rcases mem_insertRising.1 hx with rfl | hx
        · omega
        · exact hk x hx

end Sys2Proof.Machine
end

