-- ==== Sys2Proof/Laws/Palette.lean ====
section
/-! SUPPORT. Laws of the palette as the core reads it from PAL, and of the cells GEN writes to CMAP. -/

namespace Sys2Proof.Machine

/-! ### Palette entries -/

theorem palEntry_eq_some_iff {m : Memory} {i : Nat} {t : Triple} :
    palEntry m i = some t ↔
      Memory.read m (palAddr i 0) = some t.r ∧ Memory.read m (palAddr i 1) = some t.g ∧
        Memory.read m (palAddr i 2) = some t.b := by
  obtain ⟨r, g, b⟩ := t
  cases hr : Memory.read m (palAddr i 0) <;> cases hg : Memory.read m (palAddr i 1) <;>
    cases hb : Memory.read m (palAddr i 2) <;> simp [palEntry, hr, hg, hb]

theorem palEntry_eq_none_iff {m : Memory} {i : Nat} :
    palEntry m i = none ↔ ∃ c < 3, Memory.read m (palAddr i c) = none := by
  constructor
  · intro h
    by_contra hc
    push Not at hc
    have h0 := hc 0 (by omega)
    have h1 := hc 1 (by omega)
    have h2 := hc 2 (by omega)
    rw [ne_eq, ← ne_eq, Option.ne_none_iff_exists'] at h0 h1 h2
    obtain ⟨r, hr⟩ := h0
    obtain ⟨g, hg⟩ := h1
    obtain ⟨b, hb⟩ := h2
    simp [palEntry, hr, hg, hb] at h
  · rintro ⟨c, hc, h⟩
    by_contra hn
    rw [← ne_eq, Option.ne_none_iff_exists'] at hn
    obtain ⟨t, ht⟩ := hn
    obtain ⟨h0, h1, h2⟩ := palEntry_eq_some_iff.1 ht
    interval_cases c <;> simp_all

/-- An entry depends on the bytes of PAL only. -/
theorem palEntry_congr {m m' : Memory} {i : Nat} (hi : i < 256)
    (h : ∀ a, Config.palBase ≤ a → a < Config.palEnd → Memory.read m a = Memory.read m' a) :
    palEntry m i = palEntry m' i := by
  have h' : ∀ c < 3, Memory.read m (palAddr i c) = Memory.read m' (palAddr i c) := fun c hc =>
    h _ (by unfold palAddr; omega) (by unfold palAddr Config.palBase Config.palEnd; omega)
  simp [palEntry, h' 0, h' 1, h' 2]

/-! ### The whole palette -/

theorem Palette.ext_get {P Q : Palette} (h : ∀ i, P.get i = Q.get i) : P = Q := by
  obtain ⟨ps, hp⟩ := P
  obtain ⟨qs, hq⟩ := Q
  have : ps = qs := List.ext_getElem (hp.trans hq.symm) fun n h1 _ => by
    have hn : n < 256 := by rw [hp] at h1; exact h1
    have := h (BitVec.ofNat 8 n)
    simpa [Palette.get, Nat.mod_eq_of_lt hn] using this
  subst this
  rfl

/-- The palette is PAL's 256 entries, each whole. -/
theorem palette_eq_some_iff {m : Memory} {P : Palette} :
    palette m = some P ↔ ∀ i : Index, palEntry m i.toNat = some (P.get i) := by
  have key : (∀ i < 256, (palEntry m i).isSome) →
      (List.range 256).filterMap (palEntry m) = (List.range 256).map fun i => (palEntry m i).getD Triple.black := by
    intro h
    rw [← List.filterMap_eq_map]
    refine List.filterMap_congr fun i hi => ?_
    obtain ⟨t, ht⟩ := Option.isSome_iff_exists.1 (h i (by simpa using hi))
    simp [ht]
  have len : ((List.range 256).filterMap (palEntry m)).length = 256 ↔ ∀ i < 256, (palEntry m i).isSome := by
    have := @List.filterMap_length_eq_length _ _ (palEntry m) (List.range 256)
    simpa using this
  unfold palette
  constructor
  · intro h
    by_cases hl : ((List.range Config.numColors).filterMap (palEntry m)).length = Config.numColors
    · simp only [hl, dite_true, Option.some.injEq] at h
      subst h
      intro i
      have hs := len.1 hl i.toNat i.isLt
      obtain ⟨t, ht⟩ := Option.isSome_iff_exists.1 hs
      have := key (len.1 hl)
      simp [Palette.get, this, ht]
    · simp [hl] at h
  · intro h
    have hs : ∀ i < 256, (palEntry m i).isSome := fun i hi => by
      have := h (BitVec.ofNat 8 i)
      simp only [BitVec.toNat_ofNat, Nat.reducePow, Nat.mod_eq_of_lt hi] at this
      simp [this]
    have hl := len.2 hs
    simp only [hl, dite_true, Option.some.injEq]
    refine Palette.ext_get fun i => ?_
    have := key hs
    simp [Palette.get, this, h i]

/-- There is no palette exactly while some byte of PAL is unwritten. -/
theorem palette_eq_none_iff {m : Memory} :
    palette m = none ↔ ∃ a, Config.palBase ≤ a ∧ a < Config.palEnd ∧ Memory.read m a = none := by
  constructor
  · intro h
    by_contra hc
    push Not at hc
    have hs : ∀ i : Index, ∃ t, palEntry m i.toNat = some t := fun i => by
      by_contra hn
      have hn : palEntry m i.toNat = none := by
        cases he : palEntry m i.toNat with
        | none => rfl
        | some t => exact absurd ⟨t, he⟩ hn
      obtain ⟨c, hc3, hr⟩ := palEntry_eq_none_iff.1 hn
      have := i.isLt
      exact hc _ (by unfold palAddr; omega) (by unfold palAddr Config.palBase Config.palEnd; omega) hr
    choose f hf using hs
    have : palette m = some ⟨(List.range 256).map fun i => f (BitVec.ofNat 8 i), by simp⟩ :=
      palette_eq_some_iff.2 fun i => by simp [hf, Palette.get]
    simp [this] at h
  · rintro ⟨a, h1, h2, hr⟩
    by_contra hn
    rw [← ne_eq, Option.ne_none_iff_exists'] at hn
    obtain ⟨P, hP⟩ := hn
    simp only [Config.palBase, Config.palEnd] at h1 h2
    have hi : (a - 0x4000) / 3 < 256 := by omega
    have he := palette_eq_some_iff.1 hP (BitVec.ofNat 8 ((a - 0x4000) / 3))
    simp only [BitVec.toNat_ofNat, Nat.reducePow, Nat.mod_eq_of_lt hi] at he
    have hnone : palEntry m ((a - 0x4000) / 3) = none := by
      refine palEntry_eq_none_iff.2 ⟨(a - 0x4000) % 3, by omega, ?_⟩
      have : palAddr ((a - 0x4000) / 3) ((a - 0x4000) % 3) = a := by unfold palAddr Config.palBase; omega
      rw [this, hr]
    simp [hnone] at he

/-- The palette depends on the bytes of PAL only. -/
theorem palette_congr {m m' : Memory}
    (h : ∀ a, Config.palBase ≤ a → a < Config.palEnd → Memory.read m a = Memory.read m' a) : palette m = palette m' := by
  have : (List.range Config.numColors).filterMap (palEntry m) = (List.range Config.numColors).filterMap (palEntry m') :=
    List.filterMap_congr fun i hi => palEntry_congr (by simpa using hi) h
  unfold palette
  simp only [this]

/-- A write to CMAP leaves the palette alone. -/
theorem palette_write_cmap (m : Memory) {a : Nat} (b : Byte) (ha : a < Config.palBase) :
    palette (Memory.write m a b) = palette m :=
  palette_congr fun _ h _ => Memory.read_write_other m b (by omega)

/-! ### Cells (R44) -/

theorem cellAddr_lt (y : Level) (x : Index) : cellAddr y x < Config.cmapBytes := by
  have := y.isLt
  have := x.isLt
  unfold cellAddr Config.cmapBytes
  omega

@[simp] theorem levelOfCell_cellAddr (y : Level) (x : Index) : levelOfCell (cellAddr y x) = y := by
  have := x.isLt
  have h : (256 * y.toNat + x.toNat) / 256 = y.toNat := by omega
  simp [levelOfCell, cellAddr, h]

@[simp] theorem indexOfCell_cellAddr (y : Level) (x : Index) : indexOfCell (cellAddr y x) = x := by
  have := x.isLt
  have h : (256 * y.toNat + x.toNat) % 256 = x.toNat := by omega
  simp [indexOfCell, cellAddr, h]

theorem cellAddr_of_lt {a : Nat} (h : a < Config.cmapBytes) : cellAddr (levelOfCell a) (indexOfCell a) = a := by
  simp only [Config.cmapBytes] at h
  simp only [cellAddr, levelOfCell, indexOfCell, BitVec.toNat_ofNat, Nat.reducePow]
  omega

/-- The value of a cell is that of the palette, where there is one. -/
theorem cellOf_of_palette {m : Memory} {P : Palette} (h : palette m = some P) (y : Level) (x : Index) :
    cellOf m y x = some (cell P y x) := by
  by_cases hx : fullbright x = true <;> simp [cellOf, cell, h, hx]

theorem cellOf_congr {m m' : Memory} (h : palette m = palette m') (y : Level) (x : Index) : cellOf m y x = cellOf m' y x := by
  simp [cellOf, h]

/-! ### The cells GEN writes -/

theorem read_writeCells (P : Palette) (l : List Nat) (m : Memory) (a : Nat) :
    Memory.read (writeCells P l m) a =
      if a ∈ l then some (cell P (levelOfCell a) (indexOfCell a)) else Memory.read m a := by
  induction l with
  | nil => simp [writeCells]
  | cons k l ih =>
    simp only [writeCells, List.foldr_cons] at ih ⊢
    rw [Memory.read_write, ih]
    by_cases h : a = k
    · simp [h]
    · simp [h]

theorem writeCells_wf {m : Memory} (h : Memory.wf m = true) (P : Palette) (l : List Nat) :
    Memory.wf (writeCells P l m) = true := by
  induction l with
  | nil => exact h
  | cons k l ih => exact Memory.wf_write ih _ _

theorem mem_unwrittenBelow {n : Nat} {written : List Nat} {a : Nat} :
    a ∈ unwrittenBelow n written ↔ a < n ∧ a ∉ written := by
  simp [unwrittenBelow]

theorem mem_genTodo {written : List Nat} {a : Nat} : a ∈ genTodo written ↔ a < Config.cmapBytes ∧ a ∉ written :=
  mem_unwrittenBelow

/-- Writing cells leaves the palette alone. -/
theorem palette_writeCells (P : Palette) {l : List Nat} (m : Memory) (h : ∀ a ∈ l, a < Config.palBase) :
    palette (writeCells P l m) = palette m :=
  palette_congr fun a ha _ => by
    rw [read_writeCells, if_neg]
    intro hl
    have := h a hl
    omega

end Sys2Proof.Machine
end

