-- ==== Sys2Proof/Laws/State.lean ====
section
/-! SUPPORT. One lemma per field for each named update of State, so that no proof unfolds one. -/

namespace Sys2Proof.Machine

/-! ### raise -/

@[simp] theorem raise_busy (e : Err) (s : State) : (raise e s).busy = s.busy := by cases e <;> rfl
@[simp] theorem raise_done (e : Err) (s : State) : (raise e s).done = s.done := by cases e <;> rfl
@[simp] theorem raise_cmapValid (e : Err) (s : State) : (raise e s).cmapValid = s.cmapValid := by cases e <;> rfl
@[simp] theorem raise_errIll (e : Err) (s : State) : (raise e s).errIll = (s.errIll || e == .ill) := by cases e <;> cases h : s.errIll <;> simp [raise, h]
@[simp] theorem raise_errBusy (e : Err) (s : State) : (raise e s).errBusy = (s.errBusy || e == .busy) := by cases e <;> cases h : s.errBusy <;> simp [raise, h]
@[simp] theorem raise_errPalwr (e : Err) (s : State) : (raise e s).errPalwr = (s.errPalwr || e == .palwr) := by cases e <;> cases h : s.errPalwr <;> simp [raise, h]
@[simp] theorem raise_errAcc (e : Err) (s : State) : (raise e s).errAcc = (s.errAcc || e == .acc) := by cases e <;> cases h : s.errAcc <;> simp [raise, h]
@[simp] theorem raise_doneIe (e : Err) (s : State) : (raise e s).doneIe = s.doneIe := by cases e <;> rfl
@[simp] theorem raise_errIe (e : Err) (s : State) : (raise e s).errIe = s.errIe := by cases e <;> rfl
@[simp] theorem raise_target (e : Err) (s : State) : (raise e s).target = s.target := by cases e <;> rfl
@[simp] theorem raise_result (e : Err) (s : State) : (raise e s).result = s.result := by cases e <;> rfl
@[simp] theorem raise_mindist (e : Err) (s : State) : (raise e s).mindist = s.mindist := by cases e <;> rfl
@[simp] theorem raise_curOp (e : Err) (s : State) : (raise e s).curOp = s.curOp := by cases e <;> rfl
@[simp] theorem raise_curLevel (e : Err) (s : State) : (raise e s).curLevel = s.curLevel := by cases e <;> rfl
@[simp] theorem raise_curIndex (e : Err) (s : State) : (raise e s).curIndex = s.curIndex := by cases e <;> rfl
@[simp] theorem raise_lt (e : Err) (s : State) : (raise e s).lt = s.lt := by cases e <;> rfl
@[simp] theorem raise_genProgress (e : Err) (s : State) : (raise e s).genProgress = s.genProgress := by cases e <;> rfl
@[simp] theorem raise_mem (e : Err) (s : State) : (raise e s).mem = s.mem := by cases e <;> rfl
@[simp] theorem raise_rst (e : Err) (s : State) : (raise e s).rst = s.rst := by cases e <;> rfl
@[simp] theorem raise_host (e : Err) (s : State) : (raise e s).host = s.host := by cases e <;> rfl
@[simp] theorem raise_sched (e : Err) (s : State) : (raise e s).sched = s.sched := by cases e <;> rfl
@[simp] theorem raise_names (e : Err) (s : State) : (raise e s).names = s.names := by cases e <;> rfl
@[simp] theorem raise_replies (e : Err) (s : State) : (raise e s).replies = s.replies := by cases e <;> rfl
@[simp] theorem raise_draws (e : Err) (s : State) : (raise e s).draws = s.draws := by cases e <;> rfl

/-! ### accept -/

@[simp] theorem accept_busy (w : Word) (s : State) : (accept w s).busy = true := rfl
@[simp] theorem accept_done (w : Word) (s : State) : (accept w s).done = false := rfl
@[simp] theorem accept_cmapValid (w : Word) (s : State) : (accept w s).cmapValid = (s.cmapValid && !(opField w == Instr.gen.op)) := rfl
@[simp] theorem accept_errIll (w : Word) (s : State) : (accept w s).errIll = s.errIll := rfl
@[simp] theorem accept_errBusy (w : Word) (s : State) : (accept w s).errBusy = s.errBusy := rfl
@[simp] theorem accept_errPalwr (w : Word) (s : State) : (accept w s).errPalwr = s.errPalwr := rfl
@[simp] theorem accept_errAcc (w : Word) (s : State) : (accept w s).errAcc = s.errAcc := rfl
@[simp] theorem accept_doneIe (w : Word) (s : State) : (accept w s).doneIe = s.doneIe := rfl
@[simp] theorem accept_errIe (w : Word) (s : State) : (accept w s).errIe = s.errIe := rfl
@[simp] theorem accept_target (w : Word) (s : State) : (accept w s).target = s.target := rfl
@[simp] theorem accept_result (w : Word) (s : State) : (accept w s).result = s.result := rfl
@[simp] theorem accept_mindist (w : Word) (s : State) : (accept w s).mindist = s.mindist := rfl
@[simp] theorem accept_curOp (w : Word) (s : State) : (accept w s).curOp = opField w := rfl
@[simp] theorem accept_curLevel (w : Word) (s : State) : (accept w s).curLevel = levelField w := rfl
@[simp] theorem accept_curIndex (w : Word) (s : State) : (accept w s).curIndex = indexField w := rfl
@[simp] theorem accept_lt (w : Word) (s : State) : (accept w s).lt = s.target := rfl
@[simp] theorem accept_genProgress (w : Word) (s : State) : (accept w s).genProgress = if opField w = Instr.gen.op then [] else s.genProgress := rfl
@[simp] theorem accept_mem (w : Word) (s : State) : (accept w s).mem = s.mem := rfl
@[simp] theorem accept_rst (w : Word) (s : State) : (accept w s).rst = s.rst := rfl
@[simp] theorem accept_host (w : Word) (s : State) : (accept w s).host = s.host := rfl
@[simp] theorem accept_sched (w : Word) (s : State) : (accept w s).sched = s.sched := rfl
@[simp] theorem accept_names (w : Word) (s : State) : (accept w s).names = s.names := rfl
@[simp] theorem accept_replies (w : Word) (s : State) : (accept w s).replies = s.replies := rfl
@[simp] theorem accept_draws (w : Word) (s : State) : (accept w s).draws = s.draws := rfl

/-! ### clearStatus -/

@[simp] theorem clearStatus_busy (w : Word) (s : State) : (clearStatus w s).busy = s.busy := rfl
@[simp] theorem clearStatus_done (w : Word) (s : State) : (clearStatus w s).done = (s.done && !w.getLsbD 1) := rfl
@[simp] theorem clearStatus_cmapValid (w : Word) (s : State) : (clearStatus w s).cmapValid = s.cmapValid := rfl
@[simp] theorem clearStatus_errIll (w : Word) (s : State) : (clearStatus w s).errIll = (s.errIll && !w.getLsbD 8) := rfl
@[simp] theorem clearStatus_errBusy (w : Word) (s : State) : (clearStatus w s).errBusy = (s.errBusy && !w.getLsbD 9) := rfl
@[simp] theorem clearStatus_errPalwr (w : Word) (s : State) : (clearStatus w s).errPalwr = (s.errPalwr && !w.getLsbD 10) := rfl
@[simp] theorem clearStatus_errAcc (w : Word) (s : State) : (clearStatus w s).errAcc = (s.errAcc && !w.getLsbD 11) := rfl
@[simp] theorem clearStatus_doneIe (w : Word) (s : State) : (clearStatus w s).doneIe = s.doneIe := rfl
@[simp] theorem clearStatus_errIe (w : Word) (s : State) : (clearStatus w s).errIe = s.errIe := rfl
@[simp] theorem clearStatus_target (w : Word) (s : State) : (clearStatus w s).target = s.target := rfl
@[simp] theorem clearStatus_result (w : Word) (s : State) : (clearStatus w s).result = s.result := rfl
@[simp] theorem clearStatus_mindist (w : Word) (s : State) : (clearStatus w s).mindist = s.mindist := rfl
@[simp] theorem clearStatus_curOp (w : Word) (s : State) : (clearStatus w s).curOp = s.curOp := rfl
@[simp] theorem clearStatus_curLevel (w : Word) (s : State) : (clearStatus w s).curLevel = s.curLevel := rfl
@[simp] theorem clearStatus_curIndex (w : Word) (s : State) : (clearStatus w s).curIndex = s.curIndex := rfl
@[simp] theorem clearStatus_lt (w : Word) (s : State) : (clearStatus w s).lt = s.lt := rfl
@[simp] theorem clearStatus_genProgress (w : Word) (s : State) : (clearStatus w s).genProgress = s.genProgress := rfl
@[simp] theorem clearStatus_mem (w : Word) (s : State) : (clearStatus w s).mem = s.mem := rfl
@[simp] theorem clearStatus_rst (w : Word) (s : State) : (clearStatus w s).rst = s.rst := rfl
@[simp] theorem clearStatus_host (w : Word) (s : State) : (clearStatus w s).host = s.host := rfl
@[simp] theorem clearStatus_sched (w : Word) (s : State) : (clearStatus w s).sched = s.sched := rfl
@[simp] theorem clearStatus_names (w : Word) (s : State) : (clearStatus w s).names = s.names := rfl
@[simp] theorem clearStatus_replies (w : Word) (s : State) : (clearStatus w s).replies = s.replies := rfl
@[simp] theorem clearStatus_draws (w : Word) (s : State) : (clearStatus w s).draws = s.draws := rfl

/-! ### resetBlock -/

@[simp] theorem resetBlock_busy (b : Bool) (s : State) : (resetBlock b s).busy = false := rfl
@[simp] theorem resetBlock_done (b : Bool) (s : State) : (resetBlock b s).done = false := rfl
@[simp] theorem resetBlock_cmapValid (b : Bool) (s : State) : (resetBlock b s).cmapValid = false := rfl
@[simp] theorem resetBlock_errIll (b : Bool) (s : State) : (resetBlock b s).errIll = false := rfl
@[simp] theorem resetBlock_errBusy (b : Bool) (s : State) : (resetBlock b s).errBusy = false := rfl
@[simp] theorem resetBlock_errPalwr (b : Bool) (s : State) : (resetBlock b s).errPalwr = false := rfl
@[simp] theorem resetBlock_errAcc (b : Bool) (s : State) : (resetBlock b s).errAcc = false := rfl
@[simp] theorem resetBlock_doneIe (b : Bool) (s : State) : (resetBlock b s).doneIe = false := rfl
@[simp] theorem resetBlock_errIe (b : Bool) (s : State) : (resetBlock b s).errIe = false := rfl
@[simp] theorem resetBlock_target (b : Bool) (s : State) : (resetBlock b s).target = Triple.black := rfl
@[simp] theorem resetBlock_result (b : Bool) (s : State) : (resetBlock b s).result = 0#32 := rfl
@[simp] theorem resetBlock_mindist (b : Bool) (s : State) : (resetBlock b s).mindist = 0#18 := rfl
@[simp] theorem resetBlock_curOp (b : Bool) (s : State) : (resetBlock b s).curOp = 0#4 := rfl
@[simp] theorem resetBlock_curLevel (b : Bool) (s : State) : (resetBlock b s).curLevel = 0#6 := rfl
@[simp] theorem resetBlock_curIndex (b : Bool) (s : State) : (resetBlock b s).curIndex = 0#8 := rfl
@[simp] theorem resetBlock_lt (b : Bool) (s : State) : (resetBlock b s).lt = Triple.black := rfl
@[simp] theorem resetBlock_genProgress (b : Bool) (s : State) : (resetBlock b s).genProgress = [] := rfl
@[simp] theorem resetBlock_mem (b : Bool) (s : State) : (resetBlock b s).mem = [] := rfl
@[simp] theorem resetBlock_rst (b : Bool) (s : State) : (resetBlock b s).rst = b := rfl
@[simp] theorem resetBlock_host (b : Bool) (s : State) : (resetBlock b s).host = s.host := rfl
@[simp] theorem resetBlock_sched (b : Bool) (s : State) : (resetBlock b s).sched = s.sched := rfl
@[simp] theorem resetBlock_names (b : Bool) (s : State) : (resetBlock b s).names = s.names := rfl
@[simp] theorem resetBlock_replies (b : Bool) (s : State) : (resetBlock b s).replies = s.replies := rfl
@[simp] theorem resetBlock_draws (b : Bool) (s : State) : (resetBlock b s).draws = s.draws := rfl

/-! ### searchEffect -/

@[simp] theorem searchEffect_busy (P : Palette) (t : Triple) (s : State) : (searchEffect P t s).busy = s.busy := rfl
@[simp] theorem searchEffect_done (P : Palette) (t : Triple) (s : State) : (searchEffect P t s).done = s.done := rfl
@[simp] theorem searchEffect_cmapValid (P : Palette) (t : Triple) (s : State) : (searchEffect P t s).cmapValid = s.cmapValid := rfl
@[simp] theorem searchEffect_errIll (P : Palette) (t : Triple) (s : State) : (searchEffect P t s).errIll = s.errIll := rfl
@[simp] theorem searchEffect_errBusy (P : Palette) (t : Triple) (s : State) : (searchEffect P t s).errBusy = s.errBusy := rfl
@[simp] theorem searchEffect_errPalwr (P : Palette) (t : Triple) (s : State) : (searchEffect P t s).errPalwr = s.errPalwr := rfl
@[simp] theorem searchEffect_errAcc (P : Palette) (t : Triple) (s : State) : (searchEffect P t s).errAcc = s.errAcc := rfl
@[simp] theorem searchEffect_doneIe (P : Palette) (t : Triple) (s : State) : (searchEffect P t s).doneIe = s.doneIe := rfl
@[simp] theorem searchEffect_errIe (P : Palette) (t : Triple) (s : State) : (searchEffect P t s).errIe = s.errIe := rfl
@[simp] theorem searchEffect_target (P : Palette) (t : Triple) (s : State) : (searchEffect P t s).target = s.target := rfl
@[simp] theorem searchEffect_result (P : Palette) (t : Triple) (s : State) : (searchEffect P t s).result = BitVec.ofNat 32 (nearest P t).1 := rfl
@[simp] theorem searchEffect_mindist (P : Palette) (t : Triple) (s : State) : (searchEffect P t s).mindist = BitVec.ofNat 18 (nearest P t).2 := rfl
@[simp] theorem searchEffect_curOp (P : Palette) (t : Triple) (s : State) : (searchEffect P t s).curOp = s.curOp := rfl
@[simp] theorem searchEffect_curLevel (P : Palette) (t : Triple) (s : State) : (searchEffect P t s).curLevel = s.curLevel := rfl
@[simp] theorem searchEffect_curIndex (P : Palette) (t : Triple) (s : State) : (searchEffect P t s).curIndex = s.curIndex := rfl
@[simp] theorem searchEffect_lt (P : Palette) (t : Triple) (s : State) : (searchEffect P t s).lt = s.lt := rfl
@[simp] theorem searchEffect_genProgress (P : Palette) (t : Triple) (s : State) : (searchEffect P t s).genProgress = s.genProgress := rfl
@[simp] theorem searchEffect_mem (P : Palette) (t : Triple) (s : State) : (searchEffect P t s).mem = s.mem := rfl
@[simp] theorem searchEffect_rst (P : Palette) (t : Triple) (s : State) : (searchEffect P t s).rst = s.rst := rfl
@[simp] theorem searchEffect_host (P : Palette) (t : Triple) (s : State) : (searchEffect P t s).host = s.host := rfl
@[simp] theorem searchEffect_sched (P : Palette) (t : Triple) (s : State) : (searchEffect P t s).sched = s.sched := rfl
@[simp] theorem searchEffect_names (P : Palette) (t : Triple) (s : State) : (searchEffect P t s).names = s.names := rfl
@[simp] theorem searchEffect_replies (P : Palette) (t : Triple) (s : State) : (searchEffect P t s).replies = s.replies := rfl
@[simp] theorem searchEffect_draws (P : Palette) (t : Triple) (s : State) : (searchEffect P t s).draws = s.draws := rfl

end Sys2Proof.Machine
end

