-- ==== Sys2Proof/Laws/Ops.lean ====
section
/-! SUPPORT. For each shared operation, once, everything it can do: where a legal transaction goes, one host transaction,
one completion. -/

namespace Sys2Proof.Machine

/-! ### Where a transaction goes (R45) -/

theorem placeOf_pal_iff {a : Addr} {n n' : Nat} :
    placeOf a n = some (.pal n') ↔
      n' = n ∧ (n = 1 ∨ n = 4 ∧ a.toNat % 4 = 0) ∧ Config.palBase ≤ a.toNat ∧ a.toNat < Config.palEnd := by
  unfold placeOf regionOf
  constructor
  · intro h
    split at h
    · split at h <;> simp_all
      split_ifs at *
      simp_all
    · simp at h
  · rintro ⟨rfl, hn, h1, h2⟩
    simp [hn, h2, Nat.not_lt.2 h1]

theorem placeOf_cmap_iff {a : Addr} {n n' : Nat} :
    placeOf a n = some (.cmap n') ↔
      n' = n ∧ (n = 1 ∨ n = 4 ∧ a.toNat % 4 = 0) ∧ a.toNat < Config.palBase := by
  unfold placeOf regionOf
  constructor
  · intro h
    split at h
    · split at h <;> simp_all
      split_ifs at * <;> simp_all
    · simp at h
  · rintro ⟨rfl, hn, h1⟩
    simp [hn, h1]

/-- The registers' addresses (R20). -/
def regAddr : Reg → Addr
  | .id => 0x8000#16
  | .cmd => 0x8004#16
  | .status => 0x8008#16
  | .irqEn => 0x800C#16
  | .target => 0x8010#16
  | .result => 0x8014#16
  | .mindist => 0x8018#16

/-- A transaction goes to a register exactly when it is of 4 bytes at its address (R42). -/
theorem placeOf_reg_iff {a : Addr} {n : Nat} {r : Reg} : placeOf a n = some (.reg r) ↔ n = 4 ∧ a = regAddr r := by
  constructor
  · intro h
    unfold placeOf regionOf at h
    simp only [Config.palBase, Config.palEnd, Config.regBase, Config.regEnd] at h
    split at h
    · split at h
      · simp at h
      · simp at h
      · rename_i hx
        split_ifs at h hx with h1 h2 h3 h4 h5
        refine ⟨h1, BitVec.eq_of_toNat_eq ?_⟩
        unfold regAt at h
        split_ifs at h <;> simp at h <;> subst h <;> simp only [regAddr, BitVec.toNat_ofNat] <;> omega
      · simp at h
    · simp at h
  · rintro ⟨rfl, rfl⟩
    cases r <;> decide

/-- The place of each register's address (R20). -/
theorem placeOf_reg :
    placeOf 0x8000#16 4 = some (.reg .id) ∧ placeOf 0x8004#16 4 = some (.reg .cmd) ∧
      placeOf 0x8008#16 4 = some (.reg .status) ∧ placeOf 0x800C#16 4 = some (.reg .irqEn) ∧
      placeOf 0x8010#16 4 = some (.reg .target) ∧ placeOf 0x8014#16 4 = some (.reg .result) ∧
      placeOf 0x8018#16 4 = some (.reg .mindist) := by decide

/-- The legal transactions of R45 are those that go somewhere. -/
theorem legal_iff {a : Addr} {n : Nat} : LegalAccess a n ↔ ∃ p, placeOf a n = some p := by
  constructor
  · have reg : ∀ r, LegalAccess (regAddr r) 4 → ∃ p, placeOf (regAddr r) 4 = some p :=
      fun r _ => ⟨_, placeOf_reg_iff.2 ⟨rfl, rfl⟩⟩
    intro h
    by_cases h1 : a.toNat < Config.palBase
    · refine ⟨.cmap n, placeOf_cmap_iff.2 ⟨rfl, ?_, h1⟩⟩
      unfold LegalAccess at h; omega
    · by_cases h2 : a.toNat < Config.palEnd
      · refine ⟨.pal n, placeOf_pal_iff.2 ⟨rfl, ?_, Nat.not_lt.1 h1, h2⟩⟩
        unfold LegalAccess at h; omega
      · have h3 : n = 4 ∧ ∃ k, k < 7 ∧ a.toNat = 0x8000 + 4 * k := by
          unfold LegalAccess at h
          simp only [Config.palEnd] at h2
          exact ⟨by omega, (a.toNat - 0x8000) / 4, by omega, by omega⟩
        obtain ⟨rfl, k, hk, ha⟩ := h3
        have : a = BitVec.ofNat 16 (0x8000 + 4 * k) := BitVec.eq_of_toNat_eq (by rw [ha, BitVec.toNat_ofNat]; omega)
        subst this
        interval_cases k
        exacts [reg .id h, reg .cmd h, reg .status h, reg .irqEn h, reg .target h, reg .result h, reg .mindist h]
  · rintro ⟨p, hp⟩
    cases p with
    | cmap m =>
      obtain ⟨-, hn, h1⟩ := placeOf_cmap_iff.1 hp
      simp only [Config.palBase] at h1
      unfold LegalAccess; omega
    | pal m =>
      obtain ⟨-, hn, -, h2⟩ := placeOf_pal_iff.1 hp
      simp only [Config.palEnd] at h2
      unfold LegalAccess; omega
    | reg r =>
      obtain ⟨rfl, rfl⟩ := placeOf_reg_iff.1 hp
      cases r <;> decide

theorem not_legal_of_none {a : Addr} {n : Nat} (h : placeOf a n = none) : ¬ LegalAccess a n := fun hl => by
  obtain ⟨p, hp⟩ := legal_iff.1 hl
  simp [hp] at h

/-! ### One host transaction (R54) -/

/-- Everything one host transaction can do, with what makes it do so. -/
inductive TxnEffect (s : State) : Txn → State → Prop where
  /-- A legal read: a reply, and nothing of the block. -/
  | read (a : Addr) (n : Nat) (v : Word) (d : Nat) (legal : LegalAccess a n) :
      TxnEffect s (.read a n) { s with draws := d, replies := v :: s.replies }
  /-- A bad read: ERR_ACC, and 0 returned. -/
  | badRead (a : Addr) (n : Nat) (bad : ¬ LegalAccess a n) :
      TxnEffect s (.read a n) { s with errAcc := true, replies := 0#32 :: s.replies }
  /-- A bad write, or one to a read-only place. -/
  | badWrite (a : Addr) (n : Nat) (v : Word)
      (bad : ¬ LegalAccess a n ∨ a.toNat < 0x4000 ∨ a = 0x8000#16 ∨ a = 0x8014#16 ∨ a = 0x8018#16) :
      TxnEffect s (.write a n v) { s with errAcc := true }
  /-- A write to PAL that is performed. -/
  | palWritten (a : Addr) (n : Nat) (v : Word) (legal : LegalAccess a n) (pal : InPal a.toNat)
      (size : n = 1 ∨ n = 4 ∧ a.toNat % 4 = 0) (idle : s.busy = false) :
      TxnEffect s (.write a n v) { s with mem := writeMem s.mem a.toNat n v, cmapValid := false }
  /-- A write to PAL while busy. -/
  | palRefused (a : Addr) (n : Nat) (v : Word) (legal : LegalAccess a n) (pal : InPal a.toNat) (busy : s.busy = true) :
      TxnEffect s (.write a n v) { s with errPalwr := true }
  /-- A command while busy. -/
  | cmdBusy (w : Word) (busy : s.busy = true) : TxnEffect s (.write 0x8004#16 4 w) { s with errBusy := true }
  /-- An illegal command. -/
  | cmdIllegal (w : Word) (e : Reject) (idle : s.busy = false) (illegal : decodeWord w = .error e) :
      TxnEffect s (.write 0x8004#16 4 w) { s with errIll := true }
  /-- An accepted command. -/
  | accepted (w : Word) (i : Instr) (idle : s.busy = false) (decodes : decodeWord w = .ok i) :
      TxnEffect s (.write 0x8004#16 4 w) (accept w s)
  /-- A write to STATUS. -/
  | cleared (w : Word) : TxnEffect s (.write 0x8008#16 4 w) (clearStatus w s)
  /-- A write to IRQ_EN. -/
  | enabled (w : Word) : TxnEffect s (.write 0x800C#16 4 w) { s with doneIe := w.getLsbD 0, errIe := w.getLsbD 1 }
  /-- A write to TARGET. -/
  | targeted (w : Word) : TxnEffect s (.write 0x8010#16 4 w) { s with target := unpack w }

theorem issue_effect (w : Word) (s : State) : TxnEffect s (.write 0x8004#16 4 w) (issue w s) := by
  unfold issue
  cases hb : s.busy
  · cases hd : decodeWord w with
    | error e => exact .cmdIllegal w e hb hd
    | ok i => exact .accepted w i hb hd
  · exact .cmdBusy w hb

theorem regWrite_effect (r : Reg) (w : Word) (s : State) : TxnEffect s (.write (regAddr r) 4 w) (regWrite r w s) := by
  cases r
  · exact .badWrite _ _ _ (.inr (.inr (.inl rfl)))
  · exact issue_effect w s
  · exact .cleared w
  · exact .enabled w
  · exact .targeted w
  · exact .badWrite _ _ _ (.inr (.inr (.inr (.inl rfl))))
  · exact .badWrite _ _ _ (.inr (.inr (.inr (.inr rfl))))

theorem hostTxn_effect (t : Txn) (s : State) : TxnEffect s t (hostTxn t s) := by
  cases t with
  | read a n =>
    simp only [hostTxn, hostRead]
    split
    · rename_i hp
      exact .badRead a n (not_legal_of_none hp)
    · rename_i hp
      exact .read a n _ _ (legal_iff.2 ⟨_, hp⟩)
    · rename_i hp
      exact .read a n _ _ (legal_iff.2 ⟨_, hp⟩)
    · rename_i hp
      exact .read a n _ s.draws (legal_iff.2 ⟨_, hp⟩)
  | write a n v =>
    simp only [hostTxn, hostWrite]
    split
    · rename_i hp
      exact .badWrite a n v (.inl (not_legal_of_none hp))
    · rename_i hp
      exact .badWrite a n v (.inr (.inl (placeOf_cmap_iff.1 hp).2.2))
    · rename_i n' hp
      have hl := legal_iff.2 ⟨_, hp⟩
      obtain ⟨rfl, hn, h1, h2⟩ := placeOf_pal_iff.1 hp
      unfold palWrite
      split
      · rename_i hb
        exact .palRefused a _ v hl ⟨h1, h2⟩ hb
      · rename_i hb
        exact .palWritten a _ v hl ⟨h1, h2⟩ hn (by simpa using hb)
    · rename_i r hp
      obtain ⟨rfl, rfl⟩ := placeOf_reg_iff.1 hp
      exact regWrite_effect r v s

/-! ### Completion (R76) -/

theorem complete_eq_next {s t : State} : complete s = .next t ↔ t = { s with busy := false, done := true } := by
  simp [complete, eq_comm]

theorem withEntry_eq_next {s t : State} {idx : Index} {f : Triple → State} :
    withEntry s idx f = .next t ↔
      ∃ p, palEntry s.mem idx.toNat = some p ∧ t = { f p with busy := false, done := true } := by
  cases h : palEntry s.mem idx.toNat <;> simp [withEntry, h, complete_eq_next]

theorem withPalette_eq_next {s t : State} {f : Palette → State} :
    withPalette s f = .next t ↔ ∃ P, palette s.mem = some P ∧ t = { f P with busy := false, done := true } := by
  cases h : palette s.mem <;> simp [withPalette, h, complete_eq_next]

/-- QUANT of an index below 224 searches (R102). -/
theorem execQuant_search {lvl : Level} {idx : Index} {s : State} (h : fullbright idx = false) :
    execQuant lvl idx s = withPalette s fun P => searchEffect P (dim (P.get idx) lvl) s := by
  simp [execQuant, h]

/-- Everything the completion of a command can do: only GEN touches memory, CMAP_VALID and GEN progress; nothing but RESULT
and MINDIST otherwise changes, beside BUSY and DONE. -/
theorem exec_eq_next {i : Instr} {s t : State} (h : exec i s = .next t) :
    (∃ P, i = .gen ∧ palette s.mem = some P ∧
      t = { s with mem := writeCells P (genTodo s.genProgress) s.mem, cmapValid := true, genProgress := [], busy := false, done := true }) ∨
    (i ≠ .gen ∧ ∃ r d, t = { s with result := r, mindist := d, busy := false, done := true }) := by
  cases i with
  | nop => exact .inr ⟨by simp, s.result, s.mindist, complete_eq_next.1 h⟩
  | dist idx =>
    obtain ⟨p, -, rfl⟩ := withEntry_eq_next.1 h
    exact .inr ⟨by simp, _, s.mindist, rfl⟩
  | matchTarget =>
    obtain ⟨P, -, rfl⟩ := withPalette_eq_next.1 h
    exact .inr ⟨by simp, _, _, rfl⟩
  | dim lvl =>
    have h : complete _ = _ := h
    obtain rfl := complete_eq_next.1 h
    exact .inr ⟨by simp, _, s.mindist, rfl⟩
  | dimp lvl idx =>
    obtain ⟨p, -, rfl⟩ := withEntry_eq_next.1 h
    exact .inr ⟨by simp, _, s.mindist, rfl⟩
  | quant lvl idx =>
    simp only [exec, execQuant] at h
    split at h
    · obtain rfl := complete_eq_next.1 h
      exact .inr ⟨by simp, _, s.mindist, rfl⟩
    · obtain ⟨P, -, rfl⟩ := withPalette_eq_next.1 h
      exact .inr ⟨by simp, _, _, rfl⟩
  | gen =>
    obtain ⟨P, hP, ht⟩ := withPalette_eq_next.1 h
    exact .inl ⟨P, rfl, hP, ht⟩

end Sys2Proof.Machine
end

