-- ==== Sys2Proof/Laws/PerInstr.lean ====
section
/-! SUPPORT. Facts of every command as syntax, one lemma per constructor: the fields of its encoding are its own, and
every reserved bit is 0 (spec/30_encoding.md R64, R66). -/

namespace Sys2Proof.Laws.EncodedFields

/-- The word of a command holds its OP, LEVEL and INDEX in their places, and 0 in the reserved fields. -/
def Statement (i : Instr) : Prop :=
  opField (encode i) = i.op ∧ levelField (encode i) = i.level ∧ indexField (encode i) = i.index ∧
    rsv0Field (encode i) = 0 ∧ rsv1Field (encode i) = 0 ∧ rsv2Field (encode i) = 0

theorem nop : Statement .nop := by simp [Statement, encode]
theorem dist (idx : Index) : Statement (.dist idx) := by simp [Statement, encode]
theorem matchTarget : Statement .matchTarget := by simp [Statement, encode]
theorem dim (lvl : Level) : Statement (.dim lvl) := by simp [Statement, encode]
theorem dimp (lvl : Level) (idx : Index) : Statement (.dimp lvl idx) := by simp [Statement, encode]
theorem quant (lvl : Level) (idx : Index) : Statement (.quant lvl idx) := by simp [Statement, encode]
theorem gen : Statement .gen := by simp [Statement, encode]

end Sys2Proof.Laws.EncodedFields
end

