-- ==== Sys2Proof/Laws/Step.lean ====
section
/-! SUPPORT. Everything one turn, and one step, can do. -/

namespace Sys2Proof.Machine

/-! ### The host's operations (R71, R72) -/

@[simp] theorem addrOf_setWidth (a : Addr) : addrOf (a.setWidth 32) = some a := by
  have h : a.toNat < 65536 := a.isLt
  have hn : (a.setWidth 32).toNat = a.toNat := by simp; omega
  rw [addrOf, if_pos (hn ▸ h)]
  simp

/-- What an operand stands for is its value. -/
theorem operandValue_of_standsFor {s : State} {o : Operand} {w : Word} (h : StandsFor s o w) : operandValue s o = w := by
  obtain rfl | ⟨id, rfl, h | ⟨h, rfl⟩⟩ := h
  · rfl
  · simp [operandValue, h]
  · simp [operandValue, h]

/-- A read whose address stands for a host address is that transaction. -/
theorem txnOf_read {s : State} {o : Operand} {a : Addr} (h : StandsFor s o (a.setWidth 32)) (n : Nat) (b : Option Name) :
    txnOf s (.read o n b) = some (.read a n) := by
  simp [txnOf, operandValue_of_standsFor h]

/-- A write whose operands stand for an address and a word is that transaction. -/
theorem txnOf_write {s : State} {o o' : Operand} {a : Addr} {v : Word} (h : StandsFor s o (a.setWidth 32))
    (h' : StandsFor s o' v) (n : Nat) : txnOf s (.write o n o') = some (.write a n v) := by
  simp [txnOf, operandValue_of_standsFor h, operandValue_of_standsFor h']

/-- An operation whose address stands for more than 16 bits is no transaction of the block (log 23). -/
theorem txnOf_outside {s : State} {o : Operand} {w : Word} (h : StandsFor s o w) (hw : 65536 ≤ w.toNat) (n : Nat)
    (o' : Operand) (b : Option Name) : txnOf s (.write o n o') = none ∧ txnOf s (.read o n b) = none := by
  simp [txnOf, addrOf, operandValue_of_standsFor h, Nat.not_lt.2 hw]

/-- A name bound anew is looked up as its new value, and every other name as before (R71). -/
theorem lookup_bindName (o : Operand) (n : Nat) (name other : Name) (v : Word) (names : List (Name × Word)) :
    (bindName (.read o n (some name)) v names).lookup other = if other = name then some v else names.lookup other := by
  by_cases h : other = name
  · simp [bindName, h]
  · simp [bindName, List.lookup, h, beq_eq_false_iff_ne.2 h]

/-- An operation that is a transaction performs it. -/
theorem performOp_txn {s : State} {op : HostOp} {x : Txn} (h : txnOf s op = some x) (ops : List HostOp) :
    performOp op ops s = { hostTxn x s with
      host := if repeats op (opValue s op) then op :: ops else ops
      names := bindName op (opValue s op) s.names } := by
  simp [performOp, opEffect, h]

/-- An operation that is no transaction leaves the block as it is. -/
theorem performOp_outside {s : State} {op : HostOp} (h : txnOf s op = none) (ops : List HostOp) :
    performOp op ops s = { s with
      draws := s.draws + 1
      host := if repeats op (opValue s op) then op :: ops else ops
      names := bindName op (opValue s op) s.names } := by
  simp [performOp, opEffect, h]

/-- A turn of the host out of reset performs its next operation. -/
theorem hostTurn_op {s : State} {op : HostOp} {ops : List HostOp} (hr : s.rst = false) (hh : s.host = op :: ops) :
    hostTurn s = performOp op ops s := by simp [hostTurn, hr, hh]

/-- A WAIT reads STATUS, and stays while BUSY is read as 1 (R72). -/
theorem hostTurn_wait {s : State} {ops : List HostOp} (hr : s.rst = false) (hh : s.host = .wait :: ops) :
    hostTurn s = { s with host := if s.busy then .wait :: ops else ops, replies := statusWord s :: s.replies } := by
  have read : hostRead statusAddr 4 s = (statusWord s, s) := by simp [hostRead, statusAddr, placeOf_reg, regRead]
  have bit : (statusWord s).getLsbD 0 = s.busy := by rw [getLsbD_statusWord]; simp
  have value : opValue s .wait = statusWord s := by simp [opValue, txnOf, read]
  rw [hostTurn_op hr hh, performOp_txn rfl, value]
  simp only [repeats, bit, bindName, hostTxn, read]

/-- Everything a turn of the host can do: nothing; a transaction, its operation done or (WAIT) still to do; or an operation
outside the block's addresses. -/
inductive HostTurnEffect (s : State) : State → Prop where
  | nothing : HostTurnEffect s s
  | txn (x : Txn) (op : HostOp) (ops left : List HostOp) (names : List (Name × Word)) (t : State) (running : s.rst = false)
      (next : s.host = op :: ops) (txn : txnOf s op = some x) (effect : TxnEffect s x t) :
      HostTurnEffect s { t with host := left, names := names }
  | outside (left : List HostOp) (names : List (Name × Word)) (d : Nat) :
      HostTurnEffect s { s with draws := d, host := left, names := names }

theorem hostTurn_effect (s : State) : HostTurnEffect s (hostTurn s) := by
  cases hr : s.rst with
  | true =>
    simp only [hostTurn, hr]
    exact .nothing
  | false =>
    cases hh : s.host with
    | nil =>
      simp only [hostTurn, hr, hh]
      exact .nothing
    | cons op ops =>
      rw [hostTurn_op hr hh]
      cases hx : txnOf s op with
      | some x =>
        rw [performOp_txn hx]
        exact .txn x op ops _ _ _ hr hh hx (hostTxn_effect x s)
      | none =>
        rw [performOp_outside hx]
        exact .outside _ _ _

/-! ### Turns and steps -/

/-- The core's turn in a busy state runs the latched command (R76). -/
theorem coreTurn_run {s : State} {i : Instr} (hb : s.busy = true) (hf : fetch s = .ok i) : coreTurn s = exec i s := by
  simp [coreTurn, hb, hf]

/-- Everything a turn can do. -/
inductive TurnEffect (s : State) : Turn → State → Prop where
  | host (t : State) (effect : HostTurnEffect s t) : TurnEffect s .host t
  | core (i : Instr) (t : State) (busy : s.busy = true) (latched : fetch s = .ok i) (runs : exec i s = .next t) :
      TurnEffect s .core t
  | coreIdle (idle : s.busy = false) : TurnEffect s .core s
  | cell (y : Level) (x : Index) (b : Byte) (gen : generating s = true) (fresh : cellAddr y x ∉ s.genProgress)
      (value : cellOf s.mem y x = some b) :
      TurnEffect s (.cell y x)
        { s with mem := Memory.write s.mem (cellAddr y x) b, genProgress := insertRising (cellAddr y x) s.genProgress }
  | cellIdle (y : Level) (x : Index) (nothing : generating s = false ∨ cellAddr y x ∈ s.genProgress) :
      TurnEffect s (.cell y x) s
  | reset (b : Bool) : TurnEffect s (.reset b) (resetBlock b s)

theorem takeTurn_effect {tn : Turn} {s t : State} (h : takeTurn tn s = .next t) : TurnEffect s tn t := by
  cases tn with
  | host =>
    simp only [takeTurn, Host.Outcome.next.injEq] at h
    subst h
    exact .host _ (hostTurn_effect s)
  | core =>
    simp only [takeTurn, coreTurn] at h
    split at h
    · rename_i hb
      cases hf : fetch s with
      | ok i => exact .core i t hb hf (by simpa [hf] using h)
      | error e => simp [hf] at h
    · rename_i hb
      simp only [Host.Outcome.next.injEq] at h
      subst h
      exact .coreIdle (by simpa using hb)
  | cell y x =>
    simp only [takeTurn, genCell] at h
    split at h
    · rename_i hg
      simp only [Bool.and_eq_true, Bool.not_eq_true', List.contains_eq_mem, decide_eq_false_iff_not] at hg
      cases hc : cellOf s.mem y x with
      | some b =>
        simp only [hc, Host.Outcome.next.injEq] at h
        subst h
        exact .cell y x b hg.1 hg.2 hc
      | none => simp [hc] at h
    · rename_i hg
      simp only [Host.Outcome.next.injEq] at h
      subst h
      refine .cellIdle y x ?_
      by_cases hgen : generating s = true
      · exact .inr (by simpa [hgen] using hg)
      · exact .inl (by simpa using hgen)
  | reset b =>
    simp only [takeTurn, Host.Outcome.next.injEq] at h
    subst h
    exact .reset b

/-- The state a step's turn starts from: the schedule is shorter or, when it has run out, as it was. -/
theorem nextTurn_state (s : State) : ∃ rest, (nextTurn s).2 = { s with sched := rest } := by
  unfold nextTurn
  split
  · exact ⟨_, rfl⟩
  · exact ⟨s.sched, rfl⟩

/-- Everything a step can do: one turn, from the state with that turn off its schedule. -/
theorem step_effect {s t : State} (h : step s = .next t) :
    ∃ rest, (nextTurn s).2 = { s with sched := rest } ∧ TurnEffect { s with sched := rest } (nextTurn s).1 t := by
  obtain ⟨rest, hr⟩ := nextTurn_state s
  exact ⟨rest, hr, hr ▸ takeTurn_effect h⟩

/-- One step of a run. -/
theorem run_succ {M : Host.Core} {k : Nat} {s t : M.State} (h : M.step s = .next t) : M.run (k + 1) s = M.run k t := by
  simp [Host.Core.run, h]

end Sys2Proof.Machine
end

