-- ==== Sys2Proof/Tests/Slice0.lean ====
section
/-! SUPPORT. Tests: expected values are those of spec/95_test_vectors.md or written out from the encodings of
spec/30_encoding.md; and, for each statement with hypotheses, a state and operands that meet them (`meets_...`). -/

namespace Sys2Proof.Tests

open Sys2Proof Sys2Proof.Machine

/-! ### Well-formedness: what each check refuses (R70, R72, R130) -/

theorem test_wf_level : levelOk 63 = true ∧ levelOk 64 = false := by decide
theorem test_wf_index : indexOk 255 = true ∧ indexOk 256 = false := by decide
theorem test_wf_channel : channelOk 255 = true ∧ channelOk 256 = false := by decide
theorem test_wf_addr : addrOk 65535 = true ∧ addrOk 65536 = false := by decide
theorem test_wf_data : dataOk 4294967295 = true ∧ dataOk 4294967296 = false := by decide
theorem test_wf_dist : (Stmt.dist 256).wf = false := by decide
theorem test_wf_dim : (Stmt.dim 64).wf = false := by decide
theorem test_wf_dimp : (Stmt.dimp 64 0).wf = false ∧ (Stmt.dimp 0 256).wf = false := by decide
theorem test_wf_quant : (Stmt.quant 64 0).wf = false ∧ (Stmt.quant 0 256).wf = false := by decide
theorem test_wf_wr32 : (Stmt.wr32 (.num 65536) (.num 0)).wf = false ∧ (Stmt.wr32 (.num 0) (.num 4294967296)).wf = false := by
  decide
theorem test_wf_wr8 : (Stmt.wr8 (.num 65536) (.num 0)).wf = false ∧ (Stmt.wr8 (.num 0) (.num 4294967296)).wf = false := by
  decide
theorem test_wf_rd32 : (Stmt.rd32 (.num 65536) none).wf = false := by decide
theorem test_wf_rd8 : (Stmt.rd8 (.num 65536) none).wf = false := by decide
theorem test_wf_setrgb :
    (Stmt.setrgb 256 0 0).wf = false ∧ (Stmt.setrgb 0 256 0).wf = false ∧ (Stmt.setrgb 0 0 256).wf = false := by decide
theorem test_wf_setie : (Stmt.setie (.num 4294967296)).wf = false := by decide
/-- A name is used only after a read that binds it (R71). -/
theorem test_wf_names :
    programWf [] [.rd32 (.num 0x8014) (some ['r']), .wr32 (.num 0x8010) (.name ['r'])] = true ∧
      programWf [] [.wr32 (.num 0x8010) (.name ['r']), .rd32 (.num 0x8014) (some ['r'])] = false ∧
      programWf [] [.rd32 (.name ['r']) none] = false ∧ programWf [] [.setie (.name ['r'])] = false := by decide
theorem test_wf_loadpal : (Stmt.loadpal [0#8]).wf = false := by decide
theorem test_wf_loadpal_768 {image : List Byte} (h : image.length = 768) : (Stmt.loadpal image).wf = true := decide_eq_true h

/-! ### Decode: words of 95_test_vectors.md 2.1 -/

theorem test_decode_nop : decodeWord 0x00000000#32 = .ok .nop := by decide
theorem test_decode_dist : decodeWord 0x00050001#32 = .ok (.dist 5#8) ∧ decodeWord 0x00FF0001#32 = .ok (.dist 255#8) := by
  decide
theorem test_decode_match : decodeWord 0x00000002#32 = .ok .matchTarget := by decide
theorem test_decode_dim : decodeWord 0x00002A03#32 = .ok (.dim 42#6) ∧ decodeWord 0x00003F03#32 = .ok (.dim 63#6) := by decide
theorem test_decode_dimp : decodeWord 0x00072004#32 = .ok (.dimp 32#6 7#8) := by decide
theorem test_decode_quant :
    decodeWord 0x00640005#32 = .ok (.quant 0#6 100#8) ∧ decodeWord 0x00E03F05#32 = .ok (.quant 63#6 224#8) := by decide
theorem test_decode_gen : decodeWord 0x00000006#32 = .ok .gen := by decide
/-- DIMP 32, 7 bit by bit: RSV2 0, INDEX 7, RSV1 0, LEVEL 32, RSV0 0, OP 4 (R64, R67). -/
theorem test_decode_bits :
    decodeWord (0b00000000#8 ++ 0b00000111#8 ++ 0b00#2 ++ 0b100000#6 ++ 0b0000#4 ++ 0b0100#4) = .ok (.dimp 32#6 7#8) := by decide
theorem test_decode_unused :
    decodeWord 0x00000100#32 = .error .unusedField ∧ decodeWord 0x00000101#32 = .error .unusedField ∧
      decodeWord 0x00010002#32 = .error .unusedField ∧ decodeWord 0x00012A03#32 = .error .unusedField := by decide
theorem test_decode_reserved :
    decodeWord 0x00000016#32 = .error .reservedBit ∧ decodeWord 0x00004005#32 = .error .reservedBit ∧
      decodeWord 0x80000006#32 = .error .reservedBit ∧ decodeWord 0xFFFFFFFF#32 = .error .reservedBit := by decide
theorem test_decode_op : decodeWord 0x00000007#32 = .error .reservedOp ∧ decodeWord 0x0000000F#32 = .error .reservedOp := by
  decide
theorem test_decode_bytes :
    decode [0x04#8, 0x20#8, 0x07#8, 0x00#8, 0xAA#8] = .ok (.dimp 32#6 7#8, [0xAA#8]) ∧
      decode [0x04#8, 0x20#8, 0x07#8] = .error .tooShort := by decide
theorem test_decode_table : decodeTableWord 32 0x00072004 = some (.dimp 32#6 7#8) ∧ decodeTableWord 32 7 = none := by decide
theorem test_mnemonics_are_the_tables :
    [Instr.nop, .dist 0#8, .matchTarget, .dim 0#6, .dimp 0#6 0#8, .quant 0#6 0#8, .gen].map Instr.mnemonic =
      opcodeTable.map OpRow.mnemonic := by decide

/-! ### Assembler (R70-R72) -/

theorem test_text_dimp : assembleText [] ["DIMP 32, 7 ; comment".toList] = some [wr32 0x8004#16 0x00072004#32] := by decide
theorem test_text_wr32 : assembleText [] ["WR32 STATUS, 0x2".toList] = some [wr32 0x8008#16 2#32] := by decide
theorem test_text_setrgb : assembleText [] ["SETRGB 200, 100, 50".toList] = some [wr32 0x8010#16 0x003264C8#32] := by decide
theorem test_text_clrst : assembleText [] ["CLRST".toList] = some [wr32 0x8008#16 0x00000F02#32] := by decide
theorem test_text_rejects :
    assembleText [] ["DIM 64".toList] = none ∧ assembleText [] ["nop".toList] = none ∧
      assembleText [] ["WR32 TARGET, r".toList] = none ∧ assembleText [] ["RD32 RESULT -> CMD".toList] = none := by decide

/-- The model's choice (log 22): a symbol is an address whole, and neither data nor part of a sum. -/
theorem test_text_symbols :
    assembleText [] ["WR32 TARGET, PAL".toList] = none ∧ assembleText [] ["RD32 PAL + 4".toList] = none ∧
      assembleText [] ["RD32 PAL".toList] = some [rd32 0x4000#16 none] := by decide
/-- A value read is an operand of a later statement (R71). -/
theorem test_text_names :
    assembleText [] ["RD32 RESULT -> r".toList, "; then".toList, "WR32 TARGET, r".toList] =
      some [rd32 0x8014#16 (some (.ident ['r'])), .write (.word 0x8010#32) 4 (.name ['r'])] := by decide
/-- What it does: RESULT read, and written to TARGET. -/
theorem test_names_run :
    ∃ t, Host.Core.run Sys2Proof.core 2 { State.reset with
        result := 0x003264C8#32
        host := [rd32 0x8014#16 (some (.ident ['r'])), .write (.word 0x8010#32) 4 (.name ['r'])] } = .next t ∧
      t.target = ⟨200#8, 100#8, 50#8⟩ ∧ t.names = [(.ident ['r'], 0x003264C8#32)] := ⟨_, rfl, by decide, by decide⟩

/-- Nothing is issued for an image of another size (R130), and no partial colormap is delivered (R132). -/
theorem test_boot : bootProgram [0#8] true = none ∧ deliver 0x00000006#32 [0#8] = none := by decide

/-! ### The palettes P_G and P_T in PAL -/

/-- Cells at consecutive addresses from a on. -/
def cellsFrom (f : Nat → Byte) : Nat → Nat → Memory
  | _, 0 => []
  | a, n + 1 => (a, f a) :: cellsFrom f (a + 1) n

theorem read_cellsFrom (f : Nat → Byte) (a n x : Nat) :
    Memory.read (cellsFrom f a n) x = if a ≤ x ∧ x < a + n then some (f x) else none := by
  induction n generalizing a with
  | zero => rw [if_neg (by omega)]; rfl
  | succ n ih =>
    simp only [cellsFrom, Memory.read, ih]
    by_cases h : a = x
    · subst h; simp
    · rw [if_neg h]
      exact if_congr (by omega) rfl rfl

theorem mem_cellsFrom {f : Nat → Byte} {a n : Nat} {c : Host.Cell} (h : c ∈ cellsFrom f a n) : a ≤ c.1 ∧ c.1 < a + n := by
  induction n generalizing a with
  | zero => cases h
  | succ n ih =>
    rcases List.mem_cons.1 h with rfl | h
    · exact ⟨Nat.le_refl _, by simp⟩
    · have := ih h; omega

theorem cellsFrom_wf (f : Nat → Byte) (a n : Nat) : Memory.wf (cellsFrom f a n) = true := by
  rw [Memory.wf_iff_pairwise]
  induction n generalizing a with
  | zero => exact List.Pairwise.nil
  | succ n ih => exact List.pairwise_cons.2 ⟨fun c hc => (mem_cellsFrom hc).1, ih _⟩

/-- Channel c of a triple. -/
def channel (t : Triple) (c : Nat) : Byte := if c = 0 then t.r else if c = 1 then t.g else t.b

/-- PAL holding these colours. -/
@[irreducible] def palMem (f : Nat → Triple) : Memory := cellsFrom (fun a => channel (f ((a - 0x4000) / 3)) ((a - 0x4000) % 3)) 0x4000 768

/-- These colours as a palette. -/
def palOf (f : Nat → Triple) : Palette := ⟨(List.range 256).map f, by simp⟩

theorem palMem_wf (f : Nat → Triple) : Memory.wf (palMem f) = true := by
  unfold palMem
  exact cellsFrom_wf _ _ _

theorem palette_palMem (f : Nat → Triple) : palette (palMem f) = some (palOf f) := by
  refine palette_eq_some_iff.2 fun i => palEntry_eq_some_iff.2 ?_
  have hi := i.isLt
  have key : ∀ c < 3, Memory.read (palMem f) (palAddr i.toNat c) = some (channel (f i.toNat) c) := fun c hc => by
    have h1 : (palAddr i.toNat c - 0x4000) / 3 = i.toNat := by simp only [palAddr, Config.palBase]; omega
    have h2 : (palAddr i.toNat c - 0x4000) % 3 = c := by simp only [palAddr, Config.palBase]; omega
    rw [palMem, read_cellsFrom, if_pos (by simp only [palAddr, Config.palBase]; omega), h1, h2]
  have get : (palOf f).get i = f i.toNat := by simp [palOf, Palette.get]
  rw [get]
  exact ⟨key 0 (by omega), key 1 (by omega), key 2 (by omega)⟩

/-- P_G. -/
def colourG (i : Nat) : Triple :=
  if i < 224 then ⟨BitVec.ofNat 8 i, BitVec.ofNat 8 i, BitVec.ofNat 8 i⟩ else ⟨255#8, BitVec.ofNat 8 (8 * (i - 224)), 0#8⟩

/-- P_T. -/
def colourT (i : Nat) : Triple := if i = 0 then ⟨10#8, 0#8, 0#8⟩ else if i = 1 then ⟨0#8, 10#8, 0#8⟩ else ⟨255#8, 255#8, 255#8⟩

/-- After reset, with these colours loaded. -/
def loaded (f : Nat → Triple) : State := { State.reset with mem := palMem f }

/-- A command in progress whose latched OP is this. -/
def busyWith (op : BitVec 4) (s : State) : State := { s with busy := true, curOp := op }

/-! ### The commands -/

theorem test_nop : ∃ t, exec .nop (busyWith 0#4 State.reset) = .next t ∧ statusWord t = 0x00000002#32 := ⟨_, rfl, by decide⟩

/-- 2.2: (1,2,3) to (3,2,1) is 8. -/
theorem test_dist :
    ∃ t, exec (.dist 0#8) { State.reset with mem := [(0x4000, 3#8), (0x4001, 2#8), (0x4002, 1#8)], lt := ⟨1#8, 2#8, 3#8⟩ } = .next t ∧
      t.result = 8#32 ∧ t.mindist = 0#18 := ⟨_, rfl, by decide, by decide⟩
theorem test_dist_max : sqdist ⟨0#8, 255#8, 0#8⟩ ⟨255#8, 0#8, 255#8⟩ = 195075 := by decide

/-- 2.3, S2: the tie goes to the lower index. -/
theorem test_match_tie :
    ∃ t, exec .matchTarget { loaded colourT with lt := ⟨5#8, 5#8, 0#8⟩ } = .next t ∧ t.result = 0#32 ∧ t.mindist = 50#18 :=
  ⟨_, withPalette_eq_next.2 ⟨_, palette_palMem _, rfl⟩, by decide +kernel, by decide +kernel⟩
theorem test_match_fullbright : nearest (palOf colourG) ⟨255#8, 128#8, 0#8⟩ = (240, 0) := by decide +kernel

/-- 2.4: DIM 0 with TARGET (200,100,50). -/
theorem test_dim :
    ∃ t, exec (.dim 0#6) { State.reset with lt := ⟨200#8, 100#8, 50#8⟩ } = .next t ∧ t.result = 0x0062C5FF#32 :=
  ⟨_, rfl, by decide⟩
theorem test_dim1 : dim1 129#8 0#6 = 254#8 ∧ dim1 130#8 0#6 = 255#8 ∧ dim1 15#8 62#6 = 0#8 ∧ dim1 48#8 62#6 = 2#8 := by decide

/-- 2.4: DIMP 5, 224 with P_G: a fullbright entry is dimmed like any other. -/
theorem test_dimp :
    ∃ t, exec (.dimp 5#6 224#8) { State.reset with mem := [(0x42A0, 255#8), (0x42A1, 0#8), (0x42A2, 0#8)] } = .next t ∧
      t.result = 0x000000FF#32 := ⟨_, rfl, by decide⟩

/-- 2.5: QUANT 0, 114 with P_G. -/
theorem test_quant :
    ∃ t, exec (.quant 0#6 114#8) (loaded colourG) = .next t ∧ t.result = 223#32 ∧ t.mindist = 3#18 :=
  ⟨_, (execQuant_search (by decide)).trans (withPalette_eq_next.2 ⟨_, palette_palMem _, rfl⟩),
    by decide +kernel, by decide +kernel⟩
/-- 2.5: QUANT 63, 224: no search; it runs though nothing is in PAL. -/
theorem test_quant_fullbright :
    ∃ t, exec (.quant 63#6 224#8) { State.reset with mindist := 7#18 } = .next t ∧ t.result = 224#32 ∧ t.mindist = 7#18 :=
  ⟨_, rfl, by decide, by decide⟩

/-- 2.6: row 32, column 100 of the table of P_G is 97. -/
theorem test_gen :
    ∃ t, exec .gen (loaded colourG) = .next t ∧ t.cmapValid = true ∧ Memory.read t.mem 0x2064 = some 97#8 :=
  ⟨_, withPalette_eq_next.2 ⟨_, palette_palMem _, rfl⟩, rfl, by
    rw [read_writeCells, if_pos (mem_genTodo.2 ⟨by decide, by decide⟩)]; decide +kernel⟩
theorem test_cell : cell (palOf colourG) 0#6 115#8 = 223#8 ∧ cell (palOf colourG) 63#6 252#8 = 252#8 := by decide +kernel

/-! ### Bus, STATUS and the interrupt: 95_test_vectors.md 2.7-2.9 -/

theorem test_bus_wr8 : ∃ t, hostWrite 0x4001#16 1 0x7F#32 State.reset = t ∧ t.mem = [(0x4001, 0x7F#8)] := ⟨_, rfl, by decide⟩
theorem test_bus_target : (hostRead 0x8010#16 4 (hostWrite 0x8010#16 4 0xFFFFFFFF#32 State.reset)).1 = 0x00FFFFFF#32 := by decide
theorem test_bus_bad :
    statusWord (hostRead 0x4002#16 4 State.reset).2 = 0x800#32 ∧ statusWord (hostRead 0x8008#16 1 State.reset).2 = 0x800#32 ∧
      statusWord (hostRead 0x801C#16 4 State.reset).2 = 0x800#32 ∧ statusWord (hostRead 0x4300#16 4 State.reset).2 = 0x800#32 ∧
      statusWord (hostWrite 0x0000#16 4 0#32 State.reset) = 0x800#32 ∧ statusWord (hostRead 0x8004#16 4 State.reset).2 = 0#32 := by
  decide
theorem test_busy_palwr :
    statusWord (hostWrite 0x4000#16 4 0#32 (busyWith 6#4 State.reset)) = 0x401#32 ∧
      statusWord (hostWrite 0x4001#16 4 0#32 (busyWith 6#4 State.reset)) = 0x801#32 := by decide
theorem test_busy_cmd :
    statusWord (hostWrite 0x8004#16 4 7#32 (busyWith 6#4 State.reset)) = 0x201#32 ∧
      statusWord (hostWrite 0x8004#16 1 2#32 (busyWith 6#4 State.reset)) = 0x801#32 := by decide
theorem test_illegal_irq :
    ∃ t, hostWrite 0x8004#16 4 7#32 { State.reset with errIe := true } = t ∧ statusWord t = 0x100#32 ∧ irq t = true :=
  ⟨_, rfl, by decide, by decide⟩
/-- All of DONE and the errors set. -/
def allSet : State := { State.reset with done := true, errIll := true, errBusy := true, errPalwr := true, errAcc := true }
theorem test_w1c :
    statusWord (hostWrite 0x8008#16 4 0x00000F02#32 allSet) = 0#32 ∧
      statusWord (hostWrite 0x8008#16 4 0x00000100#32 allSet) = 0xE02#32 := by decide
theorem test_status_sequence :
    statusWord (hostWrite 0x8004#16 4 6#32 State.reset) = 1#32 ∧
      statusWord (hostWrite 0x8004#16 4 0#32 { State.reset with done := true, cmapValid := true }) = 5#32 ∧
      statusWord (hostWrite 0x4000#16 1 0#32 { State.reset with done := true, cmapValid := true }) = 2#32 := by decide

/-! ### The step -/

/-- A command placed after reset runs at the next step. -/
theorem test_step_fetches : ∃ t, step (State.reset.withFetchWord 32 0x00002A03) = .next t ∧ t.done = true ∧ t.curLevel = 42#6 :=
  ⟨_, rfl, rfl, by decide⟩
theorem test_step_unwritten : step (State.reset.withFetchWord 32 0x00050001) = .fault .unwrittenPal := rfl
theorem test_step_cell :
    ∃ t, step { busyWith 6#4 State.reset with sched := [.cell 3#6 230#8] } = .next t ∧ Memory.read t.mem 998 = some 230#8 :=
  ⟨_, rfl, by decide⟩

/-! ### Witnesses: states and operands that meet the hypotheses of the statements

Each is named after its statement; several cases are the statement's clauses, at the ends of their ranges. -/

theorem meets_DecodedWordIsItsEncoding : decodeWord 0x00FF3F05#32 = .ok (.quant 63#6 255#8) := by decide

theorem meets_OpcodeMapRowsAreTheCommands :
    (∃ r ∈ opcodeTable, r.selects 0x00FF3F05#32) ∧ ∀ r ∈ opcodeTable, ¬ r.selects 0x00000007#32 := by decide

theorem meets_IllegalWordsExactly :
    (∃ e, decodeWord 0x00000010#32 = .error e) ∧ (∃ e, decodeWord 0x00008000#32 = .error e) ∧
      (∃ e, decodeWord 0x01000000#32 = .error e) ∧ (∃ e, decodeWord 0x00003F06#32 = .error e) ∧
      (∃ e, decodeWord 0x00FF0003#32 = .error e) ∧ ∀ e, decodeWord 0x00000006#32 ≠ .error e :=
  ⟨⟨_, rfl⟩, ⟨_, rfl⟩, ⟨_, rfl⟩, ⟨_, rfl⟩, ⟨_, rfl⟩, fun _ h => nomatch h⟩

theorem meets_AssemblerWords :
    assemble (.dist 255) = some [wr32 0x8004#16 0x00FF0001#32] ∧ assemble (.dim 63) = some [wr32 0x8004#16 0x00003F03#32] ∧
      assemble (.quant 63 255) = some [wr32 0x8004#16 0x00FF3F05#32] ∧ assemble (.dist 256) = none ∧ assemble (.dim 64) = none := by
  decide
theorem meets_AssemblerWords_names :
    assembleProgram [.rd32 (.num 65535) (some ['r']), .wr32 (.num 65535) (.name ['r'])] =
      some [rd32 0xFFFF#16 (some (.ident ['r'])), .write (.word 0xFFFF#32) 4 (.name ['r'])] ∧
    assembleProgram [.wr32 (.num 65535) (.name ['r']), .rd32 (.num 65535) (some ['r'])] = none := by decide

theorem meets_StepRunsTheLatchedCommand :
    ∃ s : State, s.busy = true ∧ fetch s = .ok (.dimp 32#6 7#8) ∧ s.sched = [.core, .host] :=
  ⟨{ busyWith 4#4 State.reset with curLevel := 32#6, curIndex := 7#8, sched := [.core, .host] }, rfl, by decide, rfl⟩
theorem meets_StepRunsTheLatchedCommand_idle_schedule :
    ∃ s : State, s.busy = true ∧ fetch s = .ok .gen ∧ s.sched = [] := ⟨busyWith 6#4 State.reset, rfl, by decide, rfl⟩

/-- A host about to perform this operation. -/
def hostingOp (op : HostOp) (s : State) : State := { s with host := [op] }

/-- The operation that is this transaction. -/
def opOf : Txn → HostOp
  | .read a n => .read (.word (a.setWidth 32)) n none
  | .write a n v => .write (.word (a.setWidth 32)) n (.word v)

/-- A host about to perform this transaction. -/
def hosting (x : Txn) (s : State) : State := hostingOp (opOf x) s

/-- Both ways the host is next, both ways an operand stands for a word, a read with and without a name, and a write; and reset. -/
theorem meets_HostTurnPerformsTheNextTransaction :
    (∃ s : State, HostIsNext s [] ∧ StandsFor s (.word 0x8014#32) ((0x8014#16).setWidth 32) ∧ s.rst = false ∧
      s.host = [.read (.word 0x8014#32) 4 (some (.ident ['r']))]) ∧
    (∃ s : State, HostIsNext s [.core] ∧ s.busy = true ∧ StandsFor s (.name ['r']) ((0xFFFF#16).setWidth 32) ∧
      StandsFor s (.name ['v']) 0xFFFFFFFF#32 ∧ s.rst = false ∧ s.host = [.write (.name ['r']) 1 (.name ['v'])]) ∧
    (∃ s : State, HostIsNext s [] ∧ s.rst = true ∧ s.host = [.read (.word 0#32) 1 none]) :=
  ⟨⟨hostingOp (.read (.word 0x8014#32) 4 (some (.ident ['r']))) State.reset, .inr ⟨rfl, rfl, rfl⟩, .inl (by decide), rfl, rfl⟩,
    ⟨{ hostingOp (.write (.name ['r']) 1 (.name ['v'])) (busyWith 6#4 State.reset) with
        sched := [.host, .core], names := [(.ident ['v'], 0xFFFFFFFF#32), (.ident ['r'], 0x0000FFFF#32)] },
      .inl rfl, rfl, .inr ⟨_, rfl, .inl (by decide)⟩, .inr ⟨_, rfl, .inl (by decide)⟩, rfl, rfl⟩,
    ⟨{ hostingOp (.read (.word 0#32) 1 none) State.reset with sched := [.host], rst := true }, .inl rfl, rfl, rfl⟩⟩

/-- The first address beyond 16 bits, given by a name, written and read; and a name without a binding. -/
theorem meets_HostTurnPerformsTheNextTransaction_outside :
    (∃ s : State, HostIsNext s [] ∧ StandsFor s (.name ['r']) 0x10000#32 ∧ 65536 ≤ (0x10000#32).toNat ∧ s.rst = false ∧
      s.host = [.write (.name ['r']) 4 (.word 0#32)]) ∧
    (∃ s : State, HostIsNext s [] ∧ StandsFor s (.name ['r']) 0x10000#32 ∧ s.rst = false ∧
      s.host = [.read (.name ['r']) 4 (some (.ident ['q']))]) ∧
    (∃ s : State, ∃ w : Word, HostIsNext s [] ∧ StandsFor s (.name ['u']) w ∧ s.rst = false ∧
      s.host = [.read (.name ['u']) 4 none]) :=
  ⟨⟨{ hostingOp (.write (.name ['r']) 4 (.word 0#32)) State.reset with names := [(.ident ['r'], 0x10000#32)] },
      .inr ⟨rfl, rfl, rfl⟩, .inr ⟨_, rfl, .inl (by decide)⟩, by decide, rfl, rfl⟩,
    ⟨{ hostingOp (.read (.name ['r']) 4 (some (.ident ['q']))) State.reset with names := [(.ident ['r'], 0x10000#32)] },
      .inr ⟨rfl, rfl, rfl⟩, .inr ⟨_, rfl, .inl (by decide)⟩, rfl, rfl⟩,
    ⟨hostingOp (.read (.name ['u']) 4 none) State.reset, _, .inr ⟨rfl, rfl, rfl⟩, .inr ⟨_, rfl, .inr ⟨rfl, rfl⟩⟩, rfl, rfl⟩⟩

theorem meets_WaitPollsUntilNotBusy :
    ∃ s : State, s.host = [.wait] ∧ s.sched = [.host] ∧ s.rst = false ∧ s.busy = true :=
  ⟨{ busyWith 6#4 State.reset with host := [.wait], sched := [.host] }, rfl, rfl, rfl, rfl⟩

theorem meets_AcceptanceLatchesTheCommand : State.reset.busy = false := rfl
theorem meets_CommandWhileBusyIsDropped : (busyWith 6#4 State.reset).busy = true := rfl
theorem meets_IllegalCommandIsDropped : State.reset.busy = false ∧ decodeWord 0x00000007#32 = .error .reservedOp := by decide

theorem meets_BadAccessOnlyRaisesErrAcc :
    ¬ LegalAccess 0x4002#16 4 ∧ ¬ LegalAccess 0x4300#16 1 ∧ ¬ LegalAccess 0x8008#16 1 ∧ ¬ LegalAccess 0x801C#16 4 ∧
      ¬ LegalAccess 0xFFFC#16 4 ∧ ¬ LegalAccess 0x0000#16 2 ∧ ¬ LegalAccess 0x0000#16 0 := by decide

theorem meets_ReadOnlyPlacesRefuseWrites :
    LegalAccess 0x0000#16 4 ∧ LegalAccess 0x3FFF#16 1 ∧ LegalAccess 0x8000#16 4 ∧ LegalAccess 0x8014#16 4 ∧
      LegalAccess 0x8018#16 4 := by decide

theorem meets_PaletteWriteWhileBusyIsRefused :
    LegalAccess 0x4000#16 4 ∧ InPal (0x4000#16).toNat ∧ LegalAccess 0x42FF#16 1 ∧ InPal (0x42FF#16).toNat ∧
      (busyWith 2#4 State.reset).busy = true := by decide

theorem meets_PaletteWriteWhileIdle :
    LegalAccess 0x4000#16 1 ∧ InPal (0x4000#16).toNat ∧ LegalAccess 0x42FC#16 4 ∧ InPal (0x42FC#16).toNat ∧
      State.reset.busy = false := by decide

/-- In PAL, the last byte of the last word, whatever the word's other bytes. -/
theorem meets_MemoryReadReturnsStoredBytes :
    ∃ s : State, LegalAccess 0x42FC#16 4 ∧ (0x42FC#16).toNat < 0x4300 ∧ InPal (0x42FC#16).toNat ∧
      Memory.read s.mem ((0x42FC#16).toNat + 3) = some 7#8 ∧ Memory.read s.mem (0x42FC#16).toNat = none :=
  ⟨{ State.reset with mem := [(0x42FF, 7#8)] }, by decide, by decide, by decide, by decide, by decide⟩

/-- The other clause: a byte of CMAP while a command other than GEN is in progress. -/
theorem meets_MemoryReadReturnsStoredBytes_cmap :
    ∃ s : State, LegalAccess 0x3FFF#16 1 ∧ generating s = false ∧ s.busy = true ∧
      Memory.read s.mem ((0x3FFF#16).toNat + 0) = some 255#8 :=
  ⟨{ busyWith 2#4 State.reset with mem := [(0x3FFF, 255#8)] }, by decide, by decide, rfl, by decide⟩

theorem meets_ReadDuringGenTellsNothing :
    LegalAccess 0x3FFC#16 4 ∧ (0x3FFC#16).toNat < 0x4000 ∧ generating (busyWith 6#4 State.reset) = true := by decide

theorem meets_LegalReadHasNoSideEffect : LegalAccess 0x0000#16 1 ∧ LegalAccess 0x42FC#16 4 ∧ LegalAccess 0x8018#16 4 := by decide

theorem meets_LoadPalStoresTheImage :
    State.reset.busy = false ∧ ∃ image ops, assemble (.loadpal image) = some ops :=
  ⟨rfl, List.replicate 768 1#8, _, if_pos (test_wf_loadpal_768 List.length_replicate)⟩

theorem meets_AtMostOneErrorPerTransaction : ¬ LegalAccess 0x8004#16 1 ∧ (busyWith 6#4 State.reset).busy = true := by decide

/-- Every way an error bit is set. -/
theorem meets_ErrorBits_set :
    (∃ t, step (hosting (.write 0x8004#16 4 7#32) State.reset) = .next t ∧ t.errIll = true) ∧
      (∃ t, step { hosting (.write 0x8004#16 4 7#32) (busyWith 6#4 State.reset) with sched := [.host] } = .next t ∧
        t.errBusy = true) ∧
      (∃ t, step { hosting (.write 0x42FF#16 1 7#32) (busyWith 6#4 State.reset) with sched := [.host] } = .next t ∧
        t.errPalwr = true) ∧
      (∃ t, step (hosting (.read 0x4300#16 1) State.reset) = .next t ∧ t.errAcc = true) ∧
      (∃ t, step (hosting (.write 0x3FFF#16 1 7#32) State.reset) = .next t ∧ t.errAcc = true) :=
  ⟨⟨_, rfl, rfl⟩, ⟨_, rfl, rfl⟩, ⟨_, rfl, rfl⟩, ⟨_, rfl, rfl⟩, ⟨_, rfl, rfl⟩⟩

/-- Both ways error bits are cleared. -/
theorem meets_ErrorBits_cleared :
    (∃ t, step (hosting (.write 0x8008#16 4 0xF00#32) allSet) = .next t ∧
      t.errIll = false ∧ t.errBusy = false ∧ t.errPalwr = false ∧ t.errAcc = false) ∧
    (∃ t, step { allSet with sched := [.reset true] } = .next t ∧
      t.errIll = false ∧ t.errBusy = false ∧ t.errPalwr = false ∧ t.errAcc = false) :=
  ⟨⟨_, rfl, rfl, rfl, rfl, rfl⟩, ⟨_, rfl, rfl, rfl, rfl, rfl⟩⟩

/-- Entry 255 of P_G, which DIST and DIMP read. -/
theorem meets_DistCompletes_and_DimpCompletes :
    Memory.read (loaded colourG).mem (0x4000 + 3 * (255#8).toNat) = some 255#8 ∧
      Memory.read (loaded colourG).mem (0x4000 + 3 * (255#8).toNat + 1) = some 248#8 ∧
      Memory.read (loaded colourG).mem (0x4000 + 3 * (255#8).toNat + 2) = some 0#8 := by
  refine ⟨?_, ?_, ?_⟩ <;> (show Memory.read (palMem colourG) _ = _; rw [palMem, read_cellsFrom]; decide)

/-- The palette MATCH, QUANT and GEN read. -/
theorem meets_MatchCompletes_and_GenCompletes : palette (loaded colourG).mem = some (palOf colourG) := palette_palMem _

theorem meets_QuantCompletes : 224 ≤ (224#8 : Index).toNat ∧ (223#8 : Index).toNat < 224 ∧
    palette (loaded colourG).mem = some (palOf colourG) := ⟨by decide, by decide, palette_palMem _⟩

theorem meets_CompletionFaultsExactlyOnUnwrittenPal :
    exec .gen State.reset = .fault .unwrittenPal ∧ exec (.quant 0#6 223#8) State.reset = .fault .unwrittenPal ∧
      exec (.dist 255#8) { State.reset with mem := [(0x42FD, 1#8), (0x42FE, 1#8)] } = .fault .unwrittenPal := ⟨rfl, rfl, rfl⟩

/-! #### Good states -/

/-- GEN in progress with P_G loaded, no cell written yet. -/
def generatingG : State := busyWith 6#4 (loaded colourG)

theorem mapped_palMem (f : Nat → Triple) : ∀ c ∈ palMem f, Mapped c.1 := fun c hc => by
  unfold palMem at hc
  have := mem_cellsFrom hc
  show c.1 < 0x4300
  omega

/-- A state out of reset, with no table and no GEN progress, is good. -/
theorem inv_of_plain {s : State} (h1 : Memory.wf s.mem = true) (h2 : ∀ c ∈ s.mem, Mapped c.1)
    (h3 : s.busy = true → ∃ i, fetch s = .ok i) (h4 : s.busy = true → s.done = false) (h5 : s.cmapValid = false)
    (h6 : s.genProgress = []) (h7 : s.mindist.toNat ≤ 195075) (h8 : s.rst = false) : Inv s where
  memCanonical := h1
  memMapped := h2
  latched := h3
  notBusyAndDone := h4
  validNotGenerating h := by simp [h5] at h
  validTable h := by simp [h5] at h
  progressGenerating h := absurd h6 h
  progressRising := by simp [h6]
  progressCells := by simp [h6]
  progressRight := by simp [h6]
  mindistRange := h7
  resetHolds h := by simp [h8] at h

/-- A step of it is the completion of GEN. -/
theorem step_generatingG : step generatingG = exec .gen generatingG :=
  (show step generatingG = coreTurn generatingG from rfl).trans (coreTurn_run rfl (by decide +kernel))

/-- What that step leaves. -/
theorem next_generatingG :
    step generatingG = .next { generatingG with
      mem := writeCells (palOf colourG) (genTodo []) (palMem colourG), cmapValid := true, busy := false, done := true } :=
  step_generatingG.trans (withPalette_eq_next.2 ⟨_, palette_palMem _, rfl⟩)

theorem inv_generatingG (sc : List Turn) : Inv { generatingG with sched := sc } :=
  have latched : fetch generatingG = .ok .gen := by decide +kernel
  inv_of_plain (palMem_wf _) (mapped_palMem _) (fun _ => ⟨.gen, latched⟩) (fun _ => rfl) rfl rfl (Nat.zero_le _) rfl

theorem loaded_generatingG : PaletteLoaded generatingG := ⟨_, palette_palMem _⟩

/-- After GEN with P_G. -/
def tableG : State :=
  { loaded colourG with mem := writeCells (palOf colourG) (genTodo []) (palMem colourG), done := true, cmapValid := true }

theorem palette_tableG : palette tableG.mem = some (palOf colourG) :=
  (palette_writeCells _ _ fun _ h => (mem_genTodo.1 h).1).trans (palette_palMem _)

theorem mapped_writeCells {P : Palette} {l : List Nat} {m : Memory} (hl : ∀ a ∈ l, a < Config.cmapBytes) (hm : ∀ c ∈ m, Mapped c.1) :
    ∀ c ∈ writeCells P l m, Mapped c.1 := by
  induction l with
  | nil => exact hm
  | cons a l ih =>
    intro c hc
    rcases Memory.mem_write hc with rfl | hc
    · exact Nat.lt_trans (hl a (List.mem_cons_self ..)) (by decide)
    · exact ih (fun b hb => hl b (List.mem_cons_of_mem _ hb)) c hc

theorem inv_tableG : Inv tableG where
  memCanonical := writeCells_wf (palMem_wf _) _ _
  memMapped := mapped_writeCells (fun _ h => (mem_genTodo.1 h).1) (mapped_palMem _)
  latched h := by cases h
  notBusyAndDone h := by cases h
  validNotGenerating _ := rfl
  validTable _ := ⟨_, palette_tableG, fun y x => by
    show Memory.read (writeCells _ _ _) _ = _
    rw [read_writeCells, if_pos (mem_genTodo.2 ⟨cellAddr_lt y x, by simp⟩), levelOfCell_cellAddr, indexOfCell_cellAddr]⟩
  progressGenerating h := absurd rfl h
  progressRising := List.Pairwise.nil
  progressCells _ h := nomatch h
  progressRight _ h := nomatch h
  mindistRange := Nat.zero_le _
  resetHolds h := by cases h

theorem meets_GenLeavesTheWholeTable :
    Inv generatingG ∧ Completes generatingG .gen ∧ palette generatingG.mem = some (palOf colourG) :=
  ⟨inv_generatingG [], ⟨rfl, rfl, rfl⟩, palette_palMem _⟩

/-- Both clauses, each for the cell of its turn: the first cell, written already; the last cell before a column is fullbright, with
the palette loaded; and the last cell of all, fullbright, with nothing loaded. -/
theorem meets_GenWritesEachCellOnce :
    (∃ s : State, s.sched = [.cell 0#6 0#8] ∧ generating s = true ∧
      256 * (0#6 : Level).toNat + (0#8 : Index).toNat ∈ s.genProgress) ∧
    (∃ s : State, s.sched = [.cell 63#6 223#8] ∧ generating s = true ∧ palette s.mem = some (palOf colourG) ∧
      256 * (63#6 : Level).toNat + (223#8 : Index).toNat ∉ s.genProgress) ∧
    (∃ s : State, s.sched = [.cell 63#6 255#8] ∧ generating s = true ∧ s.mem = [] ∧ 224 ≤ (255#8 : Index).toNat ∧
      256 * (63#6 : Level).toNat + (255#8 : Index).toNat ∉ s.genProgress) :=
  ⟨⟨{ generatingG with sched := [.cell 0#6 0#8], genProgress := [0] }, rfl, rfl, by decide⟩,
    ⟨{ generatingG with sched := [.cell 63#6 223#8], genProgress := [0] }, rfl, rfl, palette_palMem _, by decide⟩,
    ⟨{ busyWith 6#4 State.reset with sched := [.cell 63#6 255#8] }, rfl, rfl, rfl, by decide, by decide⟩⟩

/-- GEN in progress with P_G loaded, the first cell written. -/
def partlyG : State := { generatingG with mem := Memory.write (palMem colourG) 0 0#8, genProgress := [0] }

theorem palette_partlyG : palette partlyG.mem = some (palOf colourG) :=
  (palette_write_cmap _ _ (by decide)).trans (palette_palMem _)

theorem inv_partlyG : Inv partlyG where
  memCanonical := Memory.wf_write (palMem_wf _) _ _
  memMapped c hc := by
    rcases Memory.mem_write hc with rfl | hc
    · show 0 < 0x4300; decide
    · exact mapped_palMem _ c hc
  latched _ := ⟨.gen, by decide +kernel⟩
  notBusyAndDone _ := rfl
  validNotGenerating h := by cases h
  validTable h := by cases h
  progressGenerating _ := rfl
  progressRising := by decide
  progressCells := by decide
  progressRight a ha := by
    obtain rfl : a = 0 := by simpa [partlyG] using ha
    refine ⟨0#8, ?_, Memory.read_write_same _ _ _⟩
    rw [cellOf_of_palette palette_partlyG]
    decide +kernel
  mindistRange := Nat.zero_le _
  resetHolds h := by cases h

/-- Two good states that agree on PAL and LT, and differ in CMAP, GEN progress and RESULT. -/
theorem meets_ResultsAreDetermined :
    ∃ s s' t : State, (∀ a, InPal a → Memory.read s.mem a = Memory.read s'.mem a) ∧ s.lt = s'.lt ∧ exec .gen s = .next t ∧
      Inv s ∧ Inv s' ∧ s.genProgress ≠ s'.genProgress ∧ s.result ≠ s'.result :=
  ⟨partlyG, { generatingG with result := 9#32 }, _, fun _ ha => Memory.read_write_other _ _ (by unfold InPal at ha; omega), rfl,
    withPalette_eq_next.2 ⟨_, palette_partlyG, rfl⟩, inv_partlyG,
    inv_of_plain (palMem_wf _) (mapped_palMem _) (inv_generatingG []).latched (fun _ => rfl) rfl rfl (Nat.zero_le _) rfl,
    by decide, by decide⟩

theorem meets_GenOrderIsUnobservable : Inv generatingG ∧ generating generatingG = true ∧ PaletteLoaded generatingG :=
  ⟨inv_generatingG [], rfl, loaded_generatingG⟩

/-- P_G has 256 distinct entries; entry 255 of P_T equals entry 2. -/
theorem meets_SelfMatch :
    (∀ j k : Index, (palOf colourG).get j = (palOf colourG).get k → j = k) ∧
      (palOf colourT).get 255#8 = (palOf colourT).get 2#8 := by
  have get : ∀ (f : Nat → Triple) (i : Index), (palOf f).get i = f i.toNat := fun f i => by simp [palOf, Palette.get]
  refine ⟨fun j k h => ?_, by rw [get, get]; decide⟩
  have hj := j.isLt
  have hk := k.isLt
  rw [get, get] at h
  unfold colourG at h
  refine BitVec.eq_of_toNat_eq ?_
  have hg := congrArg (·.g.toNat) h
  have hb := congrArg (·.b.toNat) h
  have hr := congrArg (·.r.toNat) h
  split_ifs at hg hb hr <;> simp only [BitVec.toNat_ofNat] at hg hb hr <;> omega

theorem meets_DimmerScalesAndRounds :
    255 < ((255#8 : Byte).toNat * (63 - (30#6 : Level).toNat) + 16) / 32 ∧
      ¬ 255 < ((255#8 : Byte).toNat * (63 - (31#6 : Level).toNat) + 16) / 32 := by decide

theorem meets_DimmerIsMonotone :
    (63#6 : Level).toNat = (62#6 : Level).toNat + 1 ∧ (254#8 : Byte).toNat ≤ (255#8 : Byte).toNat ∧
      255 ≤ ((200#8 : Byte).toNat * (63 - (22#6 : Level).toNat) + 16) / 32 ∧ (22#6 : Level).toNat ≤ 22 := by decide

theorem meets_DimmerSpecialLevels : (15#8 : Byte).toNat ≤ 15 ∧ 16 ≤ (16#8 : Byte).toNat ∧ (47#8 : Byte).toNat ≤ 47 := by decide

theorem meets_FullbrightIdentity : 224 ≤ (224#8 : Index).toNat ∧ (255#8 : Index).toNat ≤ 255 := by decide

theorem meets_ResetTurnResetsTheBlock : { generatingG with sched := [.reset true] }.sched = [.reset true] := rfl

theorem meets_StepKeepsInvariant : ∃ t, Inv generatingG ∧ step generatingG = .next t ∧ t.cmapValid = true :=
  ⟨_, inv_generatingG [], next_generatingG, rfl⟩

/-- Both clauses: the palette loaded, and a good state whose step faults. -/
theorem meets_GoodStatesStep :
    (Inv generatingG ∧ PaletteLoaded generatingG) ∧
      ∃ s, Inv s ∧ step s = .fault .unwrittenPal :=
  ⟨⟨inv_generatingG [], loaded_generatingG⟩, busyWith 6#4 State.reset,
    inv_of_plain rfl (fun _ h => nomatch h) (fun _ => ⟨.gen, by decide +kernel⟩) (fun _ => rfl) rfl rfl (Nat.zero_le _) rfl, rfl⟩

/-- A byte changes by each of its writers. -/
theorem meets_MemoryChangesOnlyByItsWriter :
    (∃ t, step generatingG = .next t ∧ Memory.read t.mem 224 ≠ Memory.read generatingG.mem 224) ∧
      (∃ t, step { busyWith 6#4 State.reset with sched := [.cell 63#6 255#8] } = .next t ∧
        Memory.read t.mem 0x3FFF ≠ Memory.read (busyWith 6#4 State.reset).mem 0x3FFF) ∧
      (∃ t, step (hosting (.write 0x42FF#16 1 7#32) State.reset) = .next t ∧
        Memory.read t.mem 0x42FF ≠ Memory.read State.reset.mem 0x42FF) ∧
      (∃ t, step { State.reset with mem := [(0, 1#8)], sched := [.reset true] } = .next t ∧ Memory.read t.mem 0 ≠ some 1#8) := by
  refine ⟨⟨_, next_generatingG, ?_⟩, ⟨_, rfl, by decide⟩, ⟨_, rfl, by decide⟩, ⟨_, rfl, by decide⟩⟩
  show Memory.read (writeCells _ _ _) 224 ≠ Memory.read (palMem colourG) 224
  rw [read_writeCells, if_pos (mem_genTodo.2 ⟨by decide, by decide⟩), palMem, read_cellsFrom]
  decide

/-- MATCH in progress on P_T (2.3: far from everything). -/
def matchingT : State := { busyWith 2#4 (loaded colourT) with lt := ⟨128#8, 128#8, 128#8⟩, result := 5#32 }

/-- RESULT and MINDIST change at completions. -/
theorem meets_ResultsChangeOnlyAtCompletion :
    ∃ s t, step s = .next t ∧ s.result = 5#32 ∧ s.mindist = 0#18 ∧ t.result = 0#32 ∧ t.mindist = 46692#18 :=
  have run : step matchingT = exec .matchTarget matchingT :=
    (show step matchingT = coreTurn matchingT from rfl).trans (coreTurn_run rfl (by decide +kernel))
  ⟨_, _, run.trans (withPalette_eq_next.2 ⟨_, palette_palMem _, rfl⟩), rfl, rfl, by decide +kernel, by decide +kernel⟩

/-- Each change of BUSY, DONE and CMAP_VALID. -/
theorem meets_StatusBitsHaveTheirCauses :
    (∃ t, step (hosting (.write 0x8004#16 4 6#32) { State.reset with done := true, cmapValid := true }) = .next t ∧
      t.busy = true ∧ t.done = false ∧ t.cmapValid = false) ∧
    (∃ t, step generatingG = .next t ∧ t.busy = false ∧ t.done = true ∧ t.cmapValid = true) ∧
    (∃ t, step { generatingG with sched := [.reset false] } = .next t ∧ t.busy = false ∧ t.done = false) ∧
    (∃ t, step (hosting (.write 0x8008#16 4 2#32) { State.reset with done := true }) = .next t ∧ t.done = false) ∧
    (∃ t, step (hosting (.write 0x4000#16 1 2#32) { State.reset with cmapValid := true }) = .next t ∧ t.cmapValid = false) :=
  ⟨⟨_, rfl, rfl, rfl, rfl⟩, ⟨_, next_generatingG, rfl, rfl, rfl⟩, ⟨_, rfl, rfl, rfl⟩,
    ⟨_, rfl, rfl⟩, ⟨_, rfl, rfl⟩⟩

theorem meets_PollCannotMissACompletion :
    ∃ t, step generatingG = .next t ∧ generatingG.busy = true ∧ t.busy = false ∧ t.done = true :=
  ⟨_, next_generatingG, rfl, rfl, rfl⟩

theorem meets_CompletionIsGuaranteed :
    ∃ s, Inv s ∧ s.busy = true ∧ PaletteLoaded s ∧ s.sched = [.host, .cell 1#6 2#8, .reset true] :=
  ⟨{ generatingG with sched := [.host, .cell 1#6 2#8, .reset true] }, inv_generatingG _, rfl, loaded_generatingG, rfl⟩

theorem meets_ValidTableReadsAsTheCells :
    Inv tableG ∧ tableG.cmapValid = true ∧ (0x3FFC#16).toNat < 0x4000 ∧ (0x3FFC#16).toNat % 4 = 0 :=
  ⟨inv_tableG, rfl, by decide, by decide⟩

end Sys2Proof.Tests
end

section
/-! SUPPORT. The squared distance over the integers (R83, R91), and its range. -/

namespace Sys2Proof.Machine

theorem laneSq_cast (t p : Byte) : (laneSq t p : Int) = ((t.toNat : Int) - p.toNat) ^ 2 := by
  simp [laneSq, Int.toNat_of_nonneg (mul_self_nonneg _), sq]

theorem laneSq_le (t p : Byte) : laneSq t p ≤ 255 ^ 2 := by
  have hlane : |(t.toNat : Int) - p.toNat| ≤ 255 := by rw [abs_le]; omega
  have hsq : (laneSq t p : Int) ≤ 255 ^ 2 := by
    rw [laneSq_cast]
    exact sq_le_sq.2 hlane
  exact_mod_cast hsq

theorem sqdist_cast (t p : Triple) :
    (sqdist t p : Int) = ((t.r.toNat : Int) - p.r.toNat) ^ 2 + ((t.g.toNat : Int) - p.g.toNat) ^ 2 +
      ((t.b.toNat : Int) - p.b.toNat) ^ 2 := by
  simp only [sqdist, Nat.cast_add, laneSq_cast]

theorem sqdist_le (t p : Triple) : sqdist t p ≤ 195075 := by
  have hr := laneSq_le t.r p.r
  have hg := laneSq_le t.g p.g
  have hb := laneSq_le t.b p.b
  unfold sqdist
  omega

/-- Settles O41: each lane is the square of a signed difference of two bytes. -/
theorem squaredDistanceIsExact : Obligations.SquaredDistanceIsExact :=
  fun t p => ⟨sqdist_cast t p, sqdist_le t p, by decide, by decide⟩

end Sys2Proof.Machine
end

section
/-! SUPPORT. What the search returns (R84-R86): the scan keeps the first nearest of the candidates it has seen. -/

namespace Sys2Proof.Machine

/-- The pair (index, distance) is that of the first of the candidates at the least distance from t. -/
structure FirstNearest (t : Triple) (ps : List Triple) (best : Nat × Nat) : Prop where
  inRange : best.1 < ps.length
  distance : sqdist t ps[best.1] = best.2
  least : ∀ p ∈ ps, best.2 ≤ sqdist t p
  first : ∀ p ∈ ps.take best.1, best.2 < sqdist t p

theorem FirstNearest.singleton (t p : Triple) : FirstNearest t [p] (0, sqdist t p) where
  inRange := by simp
  distance := rfl
  least := by simp
  first := by simp

/-- A candidate strictly nearer than the best so far is the new first nearest. -/
theorem FirstNearest.append_nearer {t p : Triple} {ps : List Triple} {best : Nat × Nat}
    (h : FirstNearest t ps best) (hp : sqdist t p < best.2) :
    FirstNearest t (ps ++ [p]) (ps.length, sqdist t p) where
  inRange := by simp
  distance := by simp
  least q hq := by
    rcases List.mem_append.1 hq with hq | hq
    · exact (hp.trans_le (h.least q hq)).le
    · rw [List.mem_singleton.1 hq]
  first q hq := by
    rw [List.take_left] at hq
    exact hp.trans_le (h.least q hq)

/-- A candidate no nearer than the best so far leaves the first nearest as it was: a tie does not replace it. -/
theorem FirstNearest.append_not_nearer {t p : Triple} {ps : List Triple} {best : Nat × Nat}
    (h : FirstNearest t ps best) (hp : best.2 ≤ sqdist t p) : FirstNearest t (ps ++ [p]) best where
  inRange := by
    rw [List.length_append]
    exact h.inRange.trans_le (Nat.le_add_right _ _)
  distance := by rw [List.getElem_append_left h.inRange, h.distance]
  least q hq := by
    rcases List.mem_append.1 hq with hq | hq
    · exact h.least q hq
    · rwa [List.mem_singleton.1 hq]
  first q hq := by
    rw [List.take_append_of_le_length h.inRange.le] at hq
    exact h.first q hq

theorem FirstNearest.scan {t : Triple} {seen : List Triple} {best : Nat × Nat} (h : FirstNearest t seen best)
    (ps : List Triple) : FirstNearest t (seen ++ ps) (scan t ps seen.length best) := by
  induction ps generalizing seen best with
  | nil => simpa [Machine.scan] using h
  | cons p ps ih =>
    have hstep : FirstNearest t (seen ++ [p])
        (if sqdist t p < best.2 then (seen.length, sqdist t p) else best) := by
      split
      next hp => exact h.append_nearer hp
      next hp => exact h.append_not_nearer (not_lt.1 hp)
    simpa [Machine.scan] using ih hstep

theorem firstNearest_nearest (P : Palette) (t : Triple) : FirstNearest t P.entries (nearest P t) := by
  have hcons : [P.get 0] ++ P.entries.drop 1 = P.entries := by
    have hlen : 0 < P.entries.length := by rw [P.size]; decide
    exact (List.drop_eq_getElem_cons hlen).symm
  have hscan := (FirstNearest.singleton t (P.get 0)).scan (P.entries.drop 1)
  rwa [hcons] at hscan

/-- The search returns the entry that R85 names. -/
theorem nearestEntry_nearest (P : Palette) (t : Triple) :
    ∃ i : Index, i.toNat = (nearest P t).1 ∧ NearestEntry P t i (nearest P t).2 := by
  obtain ⟨hrange, hdist, hleast, hfirst⟩ := firstNearest_nearest P t
  have hi : (BitVec.ofNat 8 (nearest P t).1).toNat = (nearest P t).1 :=
    Nat.mod_eq_of_lt (hrange.trans_eq P.size)
  refine ⟨BitVec.ofNat 8 (nearest P t).1, hi, ?_, fun j => ?_, fun j hj => ?_⟩
  · simpa only [Palette.get, hi] using hdist
  · exact hleast _ (List.getElem_mem _)
  · rw [hi] at hj
    exact hfirst _ (List.mem_take_iff_getElem.2 ⟨j.toNat, by rw [P.size]; exact lt_min hj j.isLt, rfl⟩)

/-- The nearest entry's index is the least among the entries no candidate is nearer than. -/
theorem NearestEntry.isLeast {P : Palette} {t : Triple} {i : Index} {d : Nat} (h : NearestEntry P t i d) :
    IsLeast { n : Nat | ∃ j : Index, j.toNat = n ∧ ∀ k : Index, sqdist t (P.get j) ≤ sqdist t (P.get k) } i.toNat := by
  obtain ⟨hdist, hleast, hfirst⟩ := h
  constructor
  · exact ⟨i, rfl, fun k => hdist.trans_le (hleast k)⟩
  · rintro _ ⟨j, rfl, hj⟩
    by_contra hlt
    have hfar := hfirst j (not_le.1 hlt)
    have hnear := hj i
    omega

/-- Settles O43: the square root is monotone, so both distances order the entries alike. -/
theorem euclideanNearestIsTheSame : Obligations.EuclideanNearestIsTheSame := by
  intro P t
  obtain ⟨i, hi, hnearest⟩ := nearestEntry_nearest P t
  simpa only [Real.sqrt_le_sqrt_iff (Nat.cast_nonneg _), Nat.cast_le, hi] using hnearest.isLeast

end Sys2Proof.Machine
end

section
/-! SUPPORT. A word that decodes is the word of its command, and the core fetches what was accepted (R68, R73). -/

namespace Sys2Proof

/-- The fields of a word that Decode accepts are its command's; the reserved ones are 0 (R68). -/
theorem fields_of_decodeWord {w : Word} {i : Instr} (h : decodeWord w = .ok i) :
    (rsv0Field w = 0#4 ∧ rsv1Field w = 0#2 ∧ rsv2Field w = 0#8) ∧
      opField w = i.op ∧ levelField w = i.level ∧ indexField w = i.index := by
  simp only [decodeWord] at h
  split_ifs at h with hrsv <;> cases h <;>
    exact ⟨by simpa only [not_or, not_not] using hrsv, by simp_all [Instr.op, Instr.level, Instr.index]⟩

/-- Decode reads a command back from its own word (R68, R70). -/
theorem decodeWord_encode (i : Instr) : decodeWord (encode i) = .ok i := by
  cases i <;> simp [decodeWord, encode, Instr.op, Instr.level, Instr.index]

theorem Instr.op_eq_gen_iff {i : Instr} : i.op = Instr.gen.op ↔ i = .gen := by
  cases i <;> simp [Instr.op]

end Sys2Proof

namespace Sys2Proof.Machine

/-- After acceptance the core fetches the accepted command (R35, R73). -/
theorem fetch_accept {w : Word} {i : Instr} (h : decodeWord w = .ok i) (s : State) : fetch (accept w s) = .ok i := by
  obtain ⟨⟨h0, h1, h2⟩, -⟩ := fields_of_decodeWord h
  simp [fetch, latchedWord, cmdWord_of_fields h0 h1 h2, h]

/-- The latched OP is that of the command the core runs. -/
theorem curOp_of_fetch {s : State} {i : Instr} (h : fetch s = .ok i) : s.curOp = i.op := by
  obtain ⟨-, hop, -⟩ := fields_of_decodeWord h
  simpa [latchedWord] using hop

theorem busy_of_generating {s : State} (h : generating s = true) : s.busy = true :=
  (Bool.and_eq_true_iff.1 h).1

theorem generating_of_idle {s : State} (h : s.busy = false) : generating s = false := by
  simp [generating, h]

/-- A GEN is in progress exactly when the core will run GEN. -/
theorem generating_iff_gen {s : State} {i : Instr} (hb : s.busy = true) (h : fetch s = .ok i) :
    generating s = true ↔ i = .gen := by
  simp [generating, hb, curOp_of_fetch h, Instr.op_eq_gen_iff]

end Sys2Proof.Machine
end

section
/-! SUPPORT. Everything a step can do, in the words of `Performs`, `Completes` and `IsReset`. -/

namespace Sys2Proof.Machine

/-- Everything a step can do to the block, with what makes it do so. -/
inductive StepEffect (s : State) : State → Prop where
  /-- Nothing happens in the block. -/
  | quiet (rest : List Turn) (left : List HostOp) (names : List (Name × Word)) (d : Nat) :
      StepEffect s { s with sched := rest, host := left, names := names, draws := d }
  /-- A host transaction. -/
  | txn (rest : List Turn) (x : Txn) (left : List HostOp) (names : List (Name × Word)) (t : State) (performs : Performs s x)
      (effect : TxnEffect { s with sched := rest } x t) : StepEffect s { t with host := left, names := names }
  /-- The completion of a command. -/
  | completion (rest : List Turn) (i : Instr) (t : State) (completes : Completes s i)
      (runs : exec i { s with sched := rest } = .next t) : StepEffect s t
  /-- A cell of the GEN in progress. -/
  | cell (rest : List Turn) (y : Level) (x : Index) (b : Byte) (turn : (nextTurn s).1 = .cell y x)
      (gen : generating s = true) (fresh : cellAddr y x ∉ s.genProgress) (value : cellOf s.mem y x = some b) :
      StepEffect s { s with
        sched := rest
        mem := Memory.write s.mem (cellAddr y x) b
        genProgress := insertRising (cellAddr y x) s.genProgress }
  /-- Reset. -/
  | reset (rest : List Turn) (b : Bool) (turn : (nextTurn s).1 = .reset b) :
      StepEffect s (resetBlock b { s with sched := rest })

theorem stepEffect_of_step {s t : State} (h : step s = .next t) : StepEffect s t := by
  obtain ⟨rest, -, htake⟩ := step_effect h
  generalize hturn : (nextTurn s).1 = turn at htake
  cases htake with
  | host t heffect =>
    cases heffect with
    | nothing => exact .quiet rest s.host s.names s.draws
    | txn x op ops left names t running next htxn effect =>
      exact .txn rest x left names t ⟨hturn, running, op, ops, next, htxn⟩ effect
    | outside left names d => exact .quiet rest left names d
  | core i t busy latched runs => exact .completion rest i t ⟨hturn, busy, latched⟩ runs
  | coreIdle idle => exact .quiet rest s.host s.names s.draws
  | cell y x b gen fresh value => exact .cell rest y x b hturn gen fresh value
  | cellIdle y x nothing => exact .quiet rest s.host s.names s.draws
  | reset b => exact .reset rest b hturn

end Sys2Proof.Machine
end

section
/-! SUPPORT. Which completions write RESULT and MINDIST, and that MINDIST is in range (R30, R90). -/

namespace Sys2Proof.Machine

/-- The command searches the palette: MATCH, or QUANT of an index below 224 (R88, R102). -/
def Searches (i : Instr) : Prop := i = .matchTarget ∨ ∃ y x, x.toNat < 224 ∧ i = .quant y x

theorem fullbright_iff {x : Index} : fullbright x = true ↔ 224 ≤ x.toNat := decide_eq_true_iff

theorem nearest_distance_le (P : Palette) (t : Triple) : (nearest P t).2 ≤ 195075 := by
  obtain ⟨i, -, hdist, -⟩ := nearestEntry_nearest P t
  exact hdist ▸ sqdist_le t _

theorem searchEffect_mindist_le (P : Palette) (t : Triple) (s : State) : (searchEffect P t s).mindist.toNat ≤ 195075 :=
  (Nat.mod_le _ _).trans (nearest_distance_le P t)

/-- Every command but NOP and GEN writes RESULT. -/
theorem exec_result_change {i : Instr} {s t : State} (h : exec i s = .next t) (hne : t.result ≠ s.result) :
    i ≠ .nop ∧ i ≠ .gen := by
  constructor
  · rintro rfl
    exact hne (complete_eq_next.1 h ▸ rfl)
  · rintro rfl
    obtain ⟨P, -, rfl⟩ := withPalette_eq_next.1 h
    exact hne rfl

/-- Only a search writes MINDIST, and with a squared distance. -/
theorem exec_mindist {i : Instr} {s t : State} (h : exec i s = .next t) :
    t.mindist = s.mindist ∨ Searches i ∧ t.mindist.toNat ≤ 195075 := by
  cases i with
  | nop => exact .inl (complete_eq_next.1 h ▸ rfl)
  | dist idx =>
    obtain ⟨p, -, rfl⟩ := withEntry_eq_next.1 h
    exact .inl rfl
  | matchTarget =>
    obtain ⟨P, -, rfl⟩ := withPalette_eq_next.1 h
    exact .inr ⟨.inl rfl, searchEffect_mindist_le P s.lt s⟩
  | dim lvl => exact .inl (complete_eq_next.1 h ▸ rfl)
  | dimp lvl idx =>
    obtain ⟨p, -, rfl⟩ := withEntry_eq_next.1 h
    exact .inl rfl
  | quant lvl idx =>
    simp only [exec, execQuant] at h
    split at h
    next => exact .inl (complete_eq_next.1 h ▸ rfl)
    next hlow =>
      obtain ⟨P, -, rfl⟩ := withPalette_eq_next.1 h
      exact .inr ⟨.inr ⟨lvl, idx, not_le.1 (fullbright_iff.not.1 hlow), rfl⟩, searchEffect_mindist_le P _ s⟩
  | gen =>
    obtain ⟨P, -, rfl⟩ := withPalette_eq_next.1 h
    exact .inl rfl

end Sys2Proof.Machine
end

section
/-! SUPPORT. The invariant: what keeps it, one lemma per kind of step. -/

namespace Sys2Proof.Machine

/-- The two states agree on all that the invariant reads but for DONE and the reset line: the flags, registers and fields named
may differ. -/
def AgreeForInv (s t : State) : Prop :=
  t = { s with
    done := t.done, errIll := t.errIll, errBusy := t.errBusy, errPalwr := t.errPalwr, errAcc := t.errAcc, doneIe := t.doneIe
    errIe := t.errIe, target := t.target, result := t.result, host := t.host, sched := t.sched, names := t.names
    replies := t.replies, draws := t.draws }

/-- Out of reset the invariant does not depend on the errors, the enables, TARGET, RESULT and the model's own fields, nor on
DONE but for BUSY and DONE excluding each other. -/
theorem Inv.of_agree {s t : State} (hs : Inv s) (hrun : s.rst = false) (hagree : AgreeForInv s t)
    (hdone : t.done = true → s.done = true) : Inv t := by
  rw [hagree]
  refine { hs with notBusyAndDone := fun hb => ?_, resetHolds := fun hr => ?_ }
  · have hclear := hs.notBusyAndDone hb
    exact Bool.eq_false_iff.2 fun hd => by simp [hdone hd] at hclear
  · have hr : s.rst = true := hr
    simp [hrun] at hr

/-- The invariant does not depend on the model's own fields, in reset or out of it. -/
theorem Inv.model_fields {s : State} (hs : Inv s) (host : List HostOp) (sched : List Turn) (names : List (Name × Word))
    (draws : Nat) : Inv { s with host := host, sched := sched, names := names, draws := draws } :=
  { hs with
    resetHolds := fun hr =>
      congrArg (fun u : State => { u with host := host, sched := sched, names := names, draws := draws }) (hs.resetHolds hr) }

/-- No command is in progress while reset is asserted (R127). -/
theorem Inv.running_of_busy {s : State} (hs : Inv s) (hb : s.busy = true) : s.rst = false :=
  Bool.eq_false_iff.2 fun hr => by
    have hidle : s.busy = false := congrArg State.busy (hs.resetHolds hr)
    simp [hidle] at hb

/-- A state in which no GEN is in progress has no GEN progress (R36). -/
theorem Inv.progress_nil {s : State} (hs : Inv s) (hg : generating s = false) : s.genProgress = [] := by
  by_contra hne
  simp [hs.progressGenerating hne] at hg

theorem inv_resetBlock (b : Bool) (s : State) : Inv (resetBlock b s) where
  memCanonical := rfl
  memMapped := by simp
  latched := by simp
  notBusyAndDone := by simp
  validNotGenerating := by simp
  validTable := by simp
  progressGenerating := by simp
  progressRising := .nil
  progressCells := by simp
  progressRight := by simp
  mindistRange := by simp
  resetHolds hr := by
    obtain rfl : b = true := hr
    rfl

/-! ### A host transaction -/

theorem mem_writeMem {m : Memory} {a n : Nat} {v : Word} {c : Host.Cell} (hn : n = 1 ∨ n = 4) (h : c ∈ writeMem m a n v) :
    a ≤ c.1 ∧ c.1 < a + n ∨ c ∈ m := by
  rcases hn with rfl | rfl
  · exact (Memory.mem_write h).imp_left (by rintro rfl; simp)
  · obtain rfl | h := Memory.mem_write h
    · simp
    obtain rfl | h := Memory.mem_write h
    · simp
    obtain rfl | h := Memory.mem_write h
    · simp
    exact (Memory.mem_write h).imp_left (by rintro rfl; simp)

/-- The bytes of a legal write to PAL are in PAL. -/
theorem pal_write_range {a n k : Nat} (hpal : InPal a) (hsize : n = 1 ∨ n = 4 ∧ a % 4 = 0) (hk : a ≤ k) (hk' : k < a + n) :
    InPal k := by
  unfold InPal at *
  omega

/-- A write to PAL while idle keeps the invariant: the table is no longer marked valid (R51). -/
theorem Inv.palWritten {s : State} (hs : Inv s) (hrun : s.rst = false) (hidle : s.busy = false) {a n : Nat} (v : Word)
    (hpal : InPal a) (hsize : n = 1 ∨ n = 4 ∧ a % 4 = 0) :
    Inv { s with mem := writeMem s.mem a n v, cmapValid := false } := by
  have hnil : s.genProgress = [] := hs.progress_nil (generating_of_idle hidle)
  refine { hs with memCanonical := ?_, memMapped := ?_, validNotGenerating := ?_, validTable := ?_, progressRight := ?_,
                   resetHolds := ?_ }
  · exact writeMem_wf hs.memCanonical a n v
  · intro c hc
    obtain ⟨hlo, hhi⟩ | hc := mem_writeMem (hsize.imp_right And.left) hc
    · exact (pal_write_range hpal hsize hlo hhi).2
    · exact hs.memMapped c hc
  · simp
  · simp
  · simp [hnil]
  · simp [hrun]

/-- Acceptance keeps the invariant: the word latched is one that decodes (R73). -/
theorem Inv.accepted {s : State} (hs : Inv s) (hrun : s.rst = false) (hidle : s.busy = false) {w : Word} {i : Instr}
    (hw : decodeWord w = .ok i) : Inv (accept w s) := by
  have hnil : (accept w s).genProgress = [] := by simp [hs.progress_nil (generating_of_idle hidle)]
  have hnone (a : Nat) : a ∉ (accept w s).genProgress := hnil ▸ List.not_mem_nil
  have hvalid : (accept w s).cmapValid = true → s.cmapValid = true := fun h => (Bool.and_eq_true_iff.1 h).1
  exact {
    memCanonical := hs.memCanonical
    memMapped := hs.memMapped
    latched := fun _ => ⟨i, fetch_accept hw s⟩
    notBusyAndDone := fun _ => rfl
    validNotGenerating := by simp [generating]
    validTable := fun h => hs.validTable (hvalid h)
    progressGenerating := fun h => absurd hnil h
    progressRising := hnil ▸ .nil
    progressCells := fun a ha => absurd ha (hnone a)
    progressRight := fun a ha => absurd ha (hnone a)
    mindistRange := hs.mindistRange
    resetHolds := by simp [hrun] }

/-- A host transaction keeps the invariant. -/
theorem Inv.txn {s t : State} {x : Txn} (hs : Inv s) (hrun : s.rst = false) (h : TxnEffect s x t) : Inv t := by
  cases h with
  | palWritten a n v legal pal size idle => exact hs.palWritten hrun idle v pal size
  | accepted w i idle decodes => exact hs.accepted hrun idle decodes
  | cleared w => exact hs.of_agree hrun rfl fun hd => (Bool.and_eq_true_iff.1 hd).1
  | read | badRead | badWrite | palRefused | cmdBusy | cmdIllegal | enabled | targeted =>
    exact hs.of_agree hrun rfl id

/-! ### The completion of a command -/

theorem mem_writeCells {P : Palette} {l : List Nat} {m : Memory} {c : Host.Cell} (h : c ∈ writeCells P l m) :
    c.1 ∈ l ∨ c ∈ m := by
  induction l with
  | nil => exact .inr h
  | cons k l ih =>
    obtain rfl | h := Memory.mem_write h
    · exact .inl (List.mem_cons_self ..)
    · exact (ih h).imp_left (List.mem_cons_of_mem _)

/-- The completion of GEN leaves the complete table: the cells written before hold their final values, and it writes the
others (R104). -/
theorem Inv.tableRight_writeCells {s : State} {P : Palette} (hs : Inv s) (hP : palette s.mem = some P) :
    TableRight (writeCells P (genTodo s.genProgress) s.mem) := by
  refine ⟨P, ?_, fun y x => ?_⟩
  · rw [palette_writeCells P s.mem fun a ha => (mem_genTodo.1 ha).1, hP]
  · rw [read_writeCells]
    split
    next => simp
    next hold =>
      have hmem : cellAddr y x ∈ s.genProgress := by
        by_contra hfresh
        exact hold (mem_genTodo.2 ⟨cellAddr_lt y x, hfresh⟩)
      obtain ⟨b, hcell, hread⟩ := hs.progressRight _ hmem
      rw [cellOf_of_palette hP, levelOfCell_cellAddr, indexOfCell_cellAddr] at hcell
      rw [hread, hcell]

theorem Inv.gen_completed {s : State} {P : Palette} (hs : Inv s) (hrun : s.rst = false) (hP : palette s.mem = some P) :
    Inv { s with
      mem := writeCells P (genTodo s.genProgress) s.mem
      cmapValid := true, genProgress := [], busy := false, done := true } where
  memCanonical := writeCells_wf hs.memCanonical P _
  memMapped c hc := by
    obtain hc | hc := mem_writeCells hc
    · have hcell := (mem_genTodo.1 hc).1
      simp only [Config.cmapBytes] at hcell
      simp only [Mapped, Config.palEnd]
      omega
    · exact hs.memMapped c hc
  latched := by simp
  notBusyAndDone := by simp
  validNotGenerating := by simp [generating]
  validTable _ := hs.tableRight_writeCells hP
  progressGenerating := by simp
  progressRising := .nil
  progressCells := by simp
  progressRight := by simp
  mindistRange := hs.mindistRange
  resetHolds := by simp [hrun]

/-- The completion of a command other than GEN keeps the invariant: it had no progress. -/
theorem Inv.other_completed {s : State} {d : BitVec 18} (hs : Inv s) (hrun : s.rst = false) (hgen : generating s = false)
    (r : Word) (hd : d.toNat ≤ 195075) : Inv { s with result := r, mindist := d, busy := false, done := true } :=
  { hs with
    latched := by simp
    notBusyAndDone := by simp
    validNotGenerating := by simp [generating]
    progressGenerating := fun hne => absurd (hs.progress_nil hgen) hne
    mindistRange := hd
    resetHolds := by simp [hrun] }

theorem Inv.completion {s t : State} {i : Instr} (hs : Inv s) (hb : s.busy = true) (hf : fetch s = .ok i)
    (h : exec i s = .next t) : Inv t := by
  have hrun := hs.running_of_busy hb
  obtain ⟨P, -, hP, rfl⟩ | ⟨hi, r, d, rfl⟩ := exec_eq_next h
  · exact hs.gen_completed hrun hP
  · have hgen : generating s = false := Bool.eq_false_iff.2 fun hg => hi ((generating_iff_gen hb hf).1 hg)
    refine hs.other_completed hrun hgen r ?_
    obtain hd | ⟨-, hd⟩ := exec_mindist h
    · exact (congrArg BitVec.toNat hd).trans_le hs.mindistRange
    · exact hd

/-! ### A cell of the GEN in progress -/

/-- Writing one fresh cell keeps the invariant: it depends on PAL, which the cell is no part of (R104). -/
theorem Inv.cell {s : State} {y : Level} {x : Index} {b : Byte} (hs : Inv s) (hgen : generating s = true)
    (hfresh : cellAddr y x ∉ s.genProgress) (hvalue : cellOf s.mem y x = some b) :
    Inv { s with
      mem := Memory.write s.mem (cellAddr y x) b
      genProgress := insertRising (cellAddr y x) s.genProgress } := by
  have haddr := cellAddr_lt y x
  simp only [Config.cmapBytes] at haddr
  have hcell := cellOf_congr (palette_write_cmap s.mem b haddr)
  have hinvalid : s.cmapValid = true → False := fun hv => by simp [hs.validNotGenerating hv] at hgen
  refine { hs with memCanonical := ?_, memMapped := ?_, validTable := ?_, progressGenerating := fun _ => hgen
                   progressRising := insertRising_rising hs.progressRising, progressCells := ?_, progressRight := ?_
                   resetHolds := ?_ }
  · exact Memory.wf_write hs.memCanonical _ _
  · intro c hc
    obtain rfl | hc := Memory.mem_write hc
    · simp only [Mapped, Config.palEnd]
      omega
    · exact hs.memMapped c hc
  · exact fun hv => (hinvalid hv).elim
  · intro a ha
    obtain rfl | ha := mem_insertRising.1 ha
    · exact cellAddr_lt y x
    · exact hs.progressCells a ha
  · intro a ha
    simp only [hcell]
    obtain rfl | ha := mem_insertRising.1 ha
    · exact ⟨b, by simpa using hvalue, by simp⟩
    · have hne : a ≠ cellAddr y x := fun h => hfresh (h ▸ ha)
      simpa only [Memory.read_write_other s.mem b hne] using hs.progressRight a ha
  · simp [hs.running_of_busy (busy_of_generating hgen)]

/-! ### Every step -/

/-- Settles O53: each kind of step keeps the invariant. -/
theorem stepKeepsInvariant : Obligations.StepKeepsInvariant := by
  intro s t hs h
  have hsched (rest : List Turn) : Inv { s with sched := rest } := hs.model_fields s.host rest s.names s.draws
  cases stepEffect_of_step h with
  | quiet rest left names d => exact hs.model_fields left rest names d
  | txn rest x left names t performs effect =>
    obtain ⟨-, hrun, -⟩ := performs
    have ht := (hsched rest).txn hrun effect
    exact ht.model_fields left t.sched names t.draws
  | completion rest i t completes runs =>
    obtain ⟨-, hb, hf⟩ := completes
    exact (hsched rest).completion hb hf runs
  | cell rest y x b turn gen fresh value => exact (hsched rest).cell gen fresh value
  | reset rest b turn => exact inv_resetBlock b _

/-- Settles O52: the state after reset is one that a reset turn leaves. -/
theorem resetIsGood : Obligations.ResetIsGood := inv_resetBlock false State.reset

end Sys2Proof.Machine
end

section
/-! SUPPORT. A completion and a cell turn either give a next state or fault on an unwritten byte of PAL (log 4). -/

namespace Sys2Proof.Machine

/-- The outcome is a next state, or the fault of log 4, and that only where `missing` holds. -/
def NextOrUnwritten (o : Host.Outcome State Fault Refusal) (missing : Prop) : Prop :=
  (∃ t, o = .next t) ∨ o = .fault .unwrittenPal ∧ missing

theorem NextOrUnwritten.imp {o : Host.Outcome State Fault Refusal} {p q : Prop} (h : NextOrUnwritten o p) (hpq : p → q) :
    NextOrUnwritten o q :=
  Or.imp_right (And.imp_right hpq) h

theorem NextOrUnwritten.ne_refused {o : Host.Outcome State Fault Refusal} {p : Prop} (h : NextOrUnwritten o p)
    (r : Refusal) : o ≠ .refused r := by
  rintro rfl
  simp [NextOrUnwritten] at h

theorem NextOrUnwritten.of_fault {o : Host.Outcome State Fault Refusal} {p : Prop} {f : Fault} (h : NextOrUnwritten o p)
    (hf : o = .fault f) : f = .unwrittenPal ∧ p := by
  subst hf
  simpa [NextOrUnwritten] using h

theorem NextOrUnwritten.exists_next {o : Host.Outcome State Fault Refusal} {p : Prop} (h : NextOrUnwritten o p)
    (hp : ¬ p) : ∃ t, o = .next t :=
  h.resolve_right fun hfault => hp hfault.2

theorem nextOrUnwritten_next (t : State) (p : Prop) : NextOrUnwritten (.next t) p := .inl ⟨t, rfl⟩

theorem withEntry_fault {s : State} {idx : Index} (h : palEntry s.mem idx.toNat = none) (f : Triple → State) :
    withEntry s idx f = .fault .unwrittenPal := by simp [withEntry, h]

theorem withPalette_fault {s : State} (h : palette s.mem = none) (f : Palette → State) :
    withPalette s f = .fault .unwrittenPal := by simp [withPalette, h]

theorem execQuant_fullbright {lvl : Level} {idx : Index} {s : State} (h : fullbright idx = true) :
    execQuant lvl idx s = complete { s with result := idx.setWidth 32 } := by simp [execQuant, h]

theorem withEntry_outcome (s : State) (idx : Index) (f : Triple → State) :
    NextOrUnwritten (withEntry s idx f) (palEntry s.mem idx.toNat = none) := by
  cases h : palEntry s.mem idx.toNat with
  | none => exact .inr ⟨withEntry_fault h f, rfl⟩
  | some p => exact .inl ⟨_, withEntry_eq_next.2 ⟨p, h, rfl⟩⟩

theorem withPalette_outcome (s : State) (f : Palette → State) :
    NextOrUnwritten (withPalette s f) (palette s.mem = none) := by
  cases h : palette s.mem with
  | none => exact .inr ⟨withPalette_fault h f, rfl⟩
  | some P => exact .inl ⟨_, withPalette_eq_next.2 ⟨P, h, rfl⟩⟩

/-- While an entry is not whole there is no palette. -/
theorem palette_none_of_entry {m : Memory} {idx : Index} (h : palEntry m idx.toNat = none) : palette m = none := by
  cases hP : palette m with
  | none => rfl
  | some P => simp [palette_eq_some_iff.1 hP idx] at h

/-- The bytes of PAL that a command reads are not all written (R40; log 4). -/
def MissesPal (i : Instr) (m : Memory) : Prop :=
  match i with
  | .nop | .dim _ => False
  | .dist idx | .dimp _ idx => palEntry m idx.toNat = none
  | .quant _ idx => fullbright idx = false ∧ palette m = none
  | .matchTarget | .gen => palette m = none

theorem exec_outcome (i : Instr) (s : State) : NextOrUnwritten (exec i s) (MissesPal i s.mem) := by
  cases i with
  | nop => exact nextOrUnwritten_next _ _
  | dim lvl => exact nextOrUnwritten_next _ _
  | dist idx => exact withEntry_outcome s idx _
  | dimp lvl idx => exact withEntry_outcome s idx _
  | matchTarget => exact withPalette_outcome s _
  | gen => exact withPalette_outcome s _
  | quant lvl idx =>
    cases h : fullbright idx with
    | true => exact .inl ⟨_, execQuant_fullbright h⟩
    | false =>
      rw [exec, execQuant_search h]
      exact (withPalette_outcome s _).imp fun hP => ⟨h, hP⟩

/-- A command that misses a byte of PAL faults. -/
theorem MissesPal.fault {i : Instr} {s : State} (h : MissesPal i s.mem) : exec i s = .fault .unwrittenPal := by
  cases i with
  | nop | dim => exact h.elim
  | dist | dimp => exact withEntry_fault h _
  | quant => exact (execQuant_search h.1).trans (withPalette_fault h.2 _)
  | matchTarget | gen => exact withPalette_fault h _

/-- What a command misses leaves the palette short. -/
theorem MissesPal.palette_none {i : Instr} {m : Memory} (h : MissesPal i m) : palette m = none := by
  cases i with
  | nop | dim => exact h.elim
  | dist | dimp => exact palette_none_of_entry h
  | quant => exact h.2
  | matchTarget | gen => exact h

theorem genCell_outcome (y : Level) (x : Index) (s : State) :
    NextOrUnwritten (genCell y x s) (s.busy = true ∧ palette s.mem = none) := by
  by_cases h : (generating s && !s.genProgress.contains (cellAddr y x)) = true
  · have hb : s.busy = true := busy_of_generating (Bool.and_eq_true_iff.1 h).1
    cases hP : palette s.mem with
    | some P => exact .inl ⟨_, by simp only [genCell, h, cellOf_of_palette hP]; rfl⟩
    | none =>
      cases hc : cellOf s.mem y x with
      | some b => exact .inl ⟨_, by simp only [genCell, h, hc]; rfl⟩
      | none => exact .inr ⟨by simp only [genCell, h, hc]; rfl, hb, rfl⟩
  · exact .inl ⟨s, by simp only [genCell, h]; rfl⟩

/-- From a good state the core's turn runs a command (R73, R76). -/
theorem Inv.coreTurn_outcome {s : State} (hs : Inv s) :
    NextOrUnwritten (coreTurn s) (s.busy = true ∧ palette s.mem = none) := by
  by_cases hb : s.busy = true
  · obtain ⟨i, hf⟩ := hs.latched hb
    rw [coreTurn_run hb hf]
    exact (exec_outcome i s).imp fun h => ⟨hb, h.palette_none⟩
  · exact .inl ⟨s, by simp [coreTurn, hb]⟩

theorem Inv.takeTurn_outcome {s : State} (hs : Inv s) (turn : Turn) :
    NextOrUnwritten (takeTurn turn s) (s.busy = true ∧ palette s.mem = none) := by
  cases turn with
  | host => exact nextOrUnwritten_next _ _
  | core => exact hs.coreTurn_outcome
  | cell y x => exact genCell_outcome y x s
  | reset b => exact nextOrUnwritten_next _ _

theorem Inv.step_outcome {s : State} (hs : Inv s) : NextOrUnwritten (step s) (s.busy = true ∧ palette s.mem = none) := by
  obtain ⟨rest, hrest⟩ := nextTurn_state s
  rw [step, hrest]
  exact (hs.model_fields s.host rest s.names s.draws).takeTurn_outcome _

theorem paletteLoaded_iff {s : State} : PaletteLoaded s ↔ palette s.mem ≠ none :=
  Option.ne_none_iff_exists'.symm

/-- Settles O54: from a good state every turn gives a next state or faults on an unwritten byte of PAL. -/
theorem goodStatesStep : Obligations.GoodStatesStep := by
  intro s hs
  have h := hs.step_outcome
  refine ⟨h.ne_refused, fun f hf => ?_, fun hload => ?_⟩
  · obtain ⟨rfl, hb, hP⟩ := h.of_fault hf
    exact ⟨rfl, hb, fun hload => paletteLoaded_iff.1 hload hP⟩
  · exact h.exists_next fun ⟨_, hP⟩ => paletteLoaded_iff.1 hload hP

end Sys2Proof.Machine
end

section
/-! SUPPORT. Which steps change memory, STATUS's bits BUSY, DONE and CMAP_VALID, RESULT and MINDIST: what a transaction can change,
then what a step can. -/

namespace Sys2Proof.Machine

/-! ### Memory (R31-R33) -/

theorem TxnEffect.mem_change {s t : State} {x : Txn} {a : Nat} (h : TxnEffect s x t)
    (hne : Memory.read t.mem a ≠ Memory.read s.mem a) :
    InPal a ∧ s.busy = false ∧ ∃ b n v, x = .write b n v ∧ b.toNat ≤ a ∧ a < b.toNat + n := by
  cases h with
  | palWritten b n v legal pal size idle =>
    simp only [read_writeMem s.mem b.toNat n v (size.imp_right And.left)] at hne
    split at hne
    next hin => exact ⟨pal_write_range pal size hin.1 hin.2, idle, b, n, v, rfl, hin⟩
    next => exact absurd rfl hne
  | _ => exact absurd rfl hne

/-- Settles O55: the writers of memory are the performed PAL write, GEN's completion, a cell turn and reset. -/
theorem memoryChangesOnlyByItsWriter : Obligations.MemoryChangesOnlyByItsWriter := by
  intro s t a h hne
  cases stepEffect_of_step h with
  | quiet => exact absurd rfl hne
  | txn rest x left names t performs effect =>
    obtain ⟨hpal, hidle, b, n, v, rfl, hrange⟩ := effect.mem_change hne
    exact .inr (.inr ⟨hpal, hidle, b, n, v, performs, hrange⟩)
  | completion rest i t completes runs =>
    obtain ⟨P, rfl, -, rfl⟩ | ⟨-, r, d, rfl⟩ := exec_eq_next runs
    · simp only [read_writeCells] at hne
      split at hne
      next hcell => exact .inr (.inl ⟨(mem_genTodo.1 hcell).1, .inl completes⟩)
      next => exact absurd rfl hne
    · exact absurd rfl hne
  | cell rest y x b turn gen fresh value =>
    have ha : a = cellAddr y x := by
      by_contra hother
      exact hne (Memory.read_write_other s.mem b hother)
    exact .inr (.inl ⟨ha ▸ cellAddr_lt y x, .inr ⟨gen, y, x, turn, ha⟩⟩)
  | reset rest b turn => exact .inl ⟨b, turn⟩

/-! ### BUSY, DONE and CMAP_VALID (R38) -/

/-- The transaction is a CMD write that is accepted as this command. -/
def AcceptedTxn (s : State) (x : Txn) (i : Instr) : Prop :=
  s.busy = false ∧ ∃ w, x = .write 0x8004#16 4 w ∧ decodeWord w = .ok i

theorem AcceptedTxn.accepts {s : State} {x : Txn} {i : Instr} {rest : List Turn}
    (h : AcceptedTxn { s with sched := rest } x i) (hp : Performs s x) : Accepts s i := by
  obtain ⟨hidle, w, rfl, hw⟩ := h
  exact ⟨hidle, w, hp, hw⟩

theorem TxnEffect.busy_change {s t : State} {x : Txn} (h : TxnEffect s x t) (hne : t.busy ≠ s.busy) :
    t.busy = true ∧ ∃ i, AcceptedTxn s x i := by
  cases h with
  | accepted w i idle decodes => exact ⟨rfl, i, idle, w, rfl, decodes⟩
  | _ => exact absurd rfl hne

theorem TxnEffect.done_change {s t : State} {x : Txn} (h : TxnEffect s x t) (hne : t.done ≠ s.done) :
    t.done = false ∧ ((∃ i, AcceptedTxn s x i) ∨ ∃ w, x = .write 0x8008#16 4 w ∧ w.getLsbD 1 = true) := by
  cases h with
  | accepted w i idle decodes => exact ⟨rfl, .inl ⟨i, idle, w, rfl, decodes⟩⟩
  | cleared w =>
    have hbit : w.getLsbD 1 = true := by
      by_contra hbit
      exact hne (by rw [clearStatus_done, Bool.eq_false_iff.2 hbit, Bool.not_false, Bool.and_true])
    exact ⟨by simp [hbit], .inr ⟨w, rfl, hbit⟩⟩
  | _ => exact absurd rfl hne

theorem TxnEffect.cmapValid_change {s t : State} {x : Txn} (h : TxnEffect s x t) (hne : t.cmapValid ≠ s.cmapValid) :
    t.cmapValid = false ∧
      (AcceptedTxn s x .gen ∨ s.busy = false ∧ ∃ a n v, x = .write a n v ∧ LegalAccess a n ∧ InPal a.toNat) := by
  cases h with
  | palWritten a n v legal pal size idle => exact ⟨rfl, .inr ⟨idle, a, n, v, rfl, legal, pal⟩⟩
  | accepted w i idle decodes =>
    obtain ⟨-, hop, -⟩ := fields_of_decodeWord decodes
    have hi : i = .gen := by
      by_contra hi
      exact hne (by simp [hop, Instr.op_eq_gen_iff, hi])
    subst hi
    exact ⟨by simp [hop], .inl ⟨idle, w, rfl, decodes⟩⟩
  | _ => exact absurd rfl hne

/-- After a completion the command is done (R76). -/
theorem exec_busy_done {i : Instr} {s t : State} (h : exec i s = .next t) : t.busy = false ∧ t.done = true := by
  obtain ⟨P, -, -, rfl⟩ | ⟨-, r, d, rfl⟩ := exec_eq_next h <;> exact ⟨rfl, rfl⟩

theorem StepEffect.busy_change {s t : State} (h : StepEffect s t) (hne : t.busy ≠ s.busy) :
    t.busy = true ∧ (∃ i, Accepts s i) ∨ t.busy = false ∧ (IsReset s ∨ ∃ i, Completes s i) := by
  cases h with
  | txn rest x left names t performs effect =>
    obtain ⟨hset, i, haccepted⟩ := effect.busy_change hne
    exact .inl ⟨hset, i, haccepted.accepts performs⟩
  | completion rest i t completes runs => exact .inr ⟨(exec_busy_done runs).1, .inr ⟨i, completes⟩⟩
  | reset rest b turn => exact .inr ⟨rfl, .inl ⟨b, turn⟩⟩
  | quiet | cell => exact absurd rfl hne

theorem StepEffect.done_change {s t : State} (h : StepEffect s t) (hne : t.done ≠ s.done) :
    t.done = true ∧ (∃ i, Completes s i) ∨
      t.done = false ∧
        (IsReset s ∨ (∃ i, Accepts s i) ∨ ∃ w, Performs s (.write 0x8008#16 4 w) ∧ w.getLsbD 1 = true) := by
  cases h with
  | txn rest x left names t performs effect =>
    obtain ⟨hclear, ⟨i, haccepted⟩ | ⟨w, rfl, hbit⟩⟩ := effect.done_change hne
    · exact .inr ⟨hclear, .inr (.inl ⟨i, haccepted.accepts performs⟩)⟩
    · exact .inr ⟨hclear, .inr (.inr ⟨w, performs, hbit⟩)⟩
  | completion rest i t completes runs => exact .inl ⟨(exec_busy_done runs).2, i, completes⟩
  | reset rest b turn => exact .inr ⟨rfl, .inl ⟨b, turn⟩⟩
  | quiet | cell => exact absurd rfl hne

theorem StepEffect.cmapValid_change {s t : State} (h : StepEffect s t) (hne : t.cmapValid ≠ s.cmapValid) :
    t.cmapValid = true ∧ Completes s .gen ∨
      t.cmapValid = false ∧
        (IsReset s ∨ Accepts s .gen ∨
          s.busy = false ∧ ∃ a n v, Performs s (.write a n v) ∧ LegalAccess a n ∧ InPal a.toNat) := by
  cases h with
  | txn rest x left names t performs effect =>
    obtain ⟨hclear, haccepted | ⟨hidle, a, n, v, rfl, hpal⟩⟩ := effect.cmapValid_change hne
    · exact .inr ⟨hclear, .inr (.inl (haccepted.accepts performs))⟩
    · exact .inr ⟨hclear, .inr (.inr ⟨hidle, a, n, v, performs, hpal⟩)⟩
  | completion rest i t completes runs =>
    obtain ⟨P, rfl, -, rfl⟩ | ⟨-, r, d, rfl⟩ := exec_eq_next runs
    · exact .inl ⟨rfl, completes⟩
    · exact absurd rfl hne
  | reset rest b turn => exact .inr ⟨rfl, .inl ⟨b, turn⟩⟩
  | quiet | cell => exact absurd rfl hne

/-- Settles O57: the changes of each of the three bits, by the direction of the change. -/
theorem statusBitsHaveTheirCauses : Obligations.StatusBitsHaveTheirCauses := by
  intro s t h
  have hbusy := (stepEffect_of_step h).busy_change
  have hdone := (stepEffect_of_step h).done_change
  have hvalid := (stepEffect_of_step h).cmapValid_change
  refine ⟨fun h0 h1 => ?_, fun h1 h0 => ?_, fun h0 h1 => ?_, fun h1 h0 => ?_, fun h0 h1 => ?_, fun h1 h0 => ?_⟩
  · simpa [h0, h1] using hbusy
  · simpa [h0, h1] using hbusy
  · simpa [h0, h1] using hdone
  · simpa [h0, h1] using hdone
  · simpa [h0, h1] using hvalid
  · simpa [h0, h1] using hvalid

/-! ### RESULT and MINDIST (R30) -/

theorem TxnEffect.results {s t : State} {x : Txn} (h : TxnEffect s x t) : t.result = s.result ∧ t.mindist = s.mindist := by
  cases h <;> exact ⟨rfl, rfl⟩

/-- Settles O56: no transaction and no cell turn writes RESULT or MINDIST; a completion does as its command says. -/
theorem resultsChangeOnlyAtCompletion : Obligations.ResultsChangeOnlyAtCompletion := by
  intro s t h
  cases stepEffect_of_step h with
  | quiet | cell => exact ⟨absurd rfl, absurd rfl⟩
  | txn rest x left names t performs effect => exact ⟨absurd effect.results.1, absurd effect.results.2⟩
  | completion rest i t completes runs =>
    refine ⟨fun hne => .inr ⟨i, completes, exec_result_change runs hne⟩, fun hne => .inr ?_⟩
    obtain hsame | ⟨rfl | ⟨y, x, hx, rfl⟩, -⟩ := exec_mindist runs
    · exact absurd hsame hne
    · exact .inl completes
    · exact .inr ⟨y, x, hx, completes⟩
  | reset rest b turn => exact ⟨fun _ => .inl ⟨b, turn⟩, fun _ => .inl ⟨b, turn⟩⟩

end Sys2Proof.Machine
end

section
/-! SUPPORT. Host transactions with the registers, and legal reads (R20-R30, R54). -/

namespace Sys2Proof.Machine

theorem hostRead_reg (r : Reg) (s : State) : hostRead (regAddr r) 4 s = (regRead s r, s) := by
  simp [hostRead, placeOf_reg_iff.2 ⟨rfl, rfl⟩]

theorem hostWrite_reg (r : Reg) (w : Word) (s : State) : hostWrite (regAddr r) 4 w s = regWrite r w s := by
  simp [hostWrite, placeOf_reg_iff.2 ⟨rfl, rfl⟩]

@[simp] theorem hostRead_id (s : State) : hostRead 0x8000#16 4 s = (Config.idWord, s) := hostRead_reg .id s
@[simp] theorem hostRead_cmd (s : State) : hostRead 0x8004#16 4 s = (0#32, s) := hostRead_reg .cmd s
@[simp] theorem hostRead_status (s : State) : hostRead 0x8008#16 4 s = (statusWord s, s) := hostRead_reg .status s
@[simp] theorem hostRead_irqEn (s : State) : hostRead 0x800C#16 4 s = (irqEnWord s, s) := hostRead_reg .irqEn s
@[simp] theorem hostRead_target (s : State) : hostRead 0x8010#16 4 s = (pack s.target, s) := hostRead_reg .target s
@[simp] theorem hostRead_result (s : State) : hostRead 0x8014#16 4 s = (s.result, s) := hostRead_reg .result s
@[simp] theorem hostRead_mindist (s : State) : hostRead 0x8018#16 4 s = (s.mindist.setWidth 32, s) :=
  hostRead_reg .mindist s

@[simp] theorem hostWrite_cmd (w : Word) (s : State) : hostWrite 0x8004#16 4 w s = issue w s := hostWrite_reg .cmd w s
@[simp] theorem hostWrite_status (w : Word) (s : State) : hostWrite 0x8008#16 4 w s = clearStatus w s :=
  hostWrite_reg .status w s
@[simp] theorem hostWrite_irqEn (w : Word) (s : State) :
    hostWrite 0x800C#16 4 w s = { s with doneIe := w.getLsbD 0, errIe := w.getLsbD 1 } := hostWrite_reg .irqEn w s
@[simp] theorem hostWrite_target (w : Word) (s : State) : hostWrite 0x8010#16 4 w s = { s with target := unpack w } :=
  hostWrite_reg .target w s

theorem issue_accepts {w : Word} {i : Instr} {s : State} (hb : s.busy = false) (hw : decodeWord w = .ok i) :
    issue w s = accept w s := by simp [issue, hb, hw]

/-- Settles O10: an accepted command's word is the one that is latched. -/
theorem acceptanceLatchesTheCommand : Obligations.AcceptanceLatchesTheCommand := by
  intro s i hb
  have hw := decodeWord_encode i
  obtain ⟨-, hop, hlevel, hindex⟩ := fields_of_decodeWord hw
  refine ⟨accept (encode i) s, by rw [hostWrite_cmd, issue_accepts hb hw], fetch_accept hw s, hlevel, hindex,
    rfl, rfl, rfl, ?_, ?_, rfl⟩
  · rw [accept_cmapValid, hop]
    by_cases hi : i = .gen <;> simp [Instr.op_eq_gen_iff, hi]
  · simp only [accept_genProgress, hop, Instr.op_eq_gen_iff]

theorem hostWrite_cmap {a : Addr} {n : Nat} (hl : LegalAccess a n) (ha : a.toNat < Config.palBase) (v : Word) (s : State) :
    hostWrite a n v s = { s with errAcc := true } := by
  have hsize : n = 1 ∨ n = 4 ∧ a.toNat % 4 = 0 := hl.imp And.left fun h => ⟨h.1, h.2.1⟩
  simp [hostWrite, placeOf_cmap_iff.2 ⟨rfl, hsize, ha⟩, raise]

/-- A read-only register is one whose write raises ERR_ACC (R22). -/
theorem hostWrite_readOnly {r : Reg} (hr : r = .id ∨ r = .result ∨ r = .mindist) {n : Nat} (hl : LegalAccess (regAddr r) n)
    (v : Word) (s : State) : hostWrite (regAddr r) n v s = { s with errAcc := true } := by
  obtain rfl : n = 4 := by
    obtain ⟨rfl, hlow⟩ | ⟨rfl, -⟩ := hl
    · obtain rfl | rfl | rfl := hr <;> simp [regAddr] at hlow
    · rfl
  rw [hostWrite_reg]
  obtain rfl | rfl | rfl := hr <;> rfl

/-- Settles O14: CMAP and the read-only registers raise ERR_ACC, by place. -/
theorem readOnlyPlacesRefuseWrites : Obligations.ReadOnlyPlacesRefuseWrites := by
  intro s a n v hl hplace
  have hwrite : hostWrite a n v s = { s with errAcc := true } := by
    obtain ha | rfl | rfl | rfl := hplace
    · exact hostWrite_cmap hl ha v s
    · exact hostWrite_readOnly (r := .id) (by simp) hl v s
    · exact hostWrite_readOnly (r := .result) (by simp) hl v s
    · exact hostWrite_readOnly (r := .mindist) (by simp) hl v s
  exact ⟨hwrite, by simp [hwrite, getLsbD_statusWord], hostRead_cmd s⟩

/-- A legal read leaves the block as it was, but for the free bytes drawn (R56; log 5). -/
theorem hostRead_legal {a : Addr} {n : Nat} (hl : LegalAccess a n) (s : State) :
    ∃ d, (hostRead a n s).2 = { s with draws := d } := by
  obtain ⟨p, hp⟩ := legal_iff.1 hl
  cases p with
  | cmap k => exact ⟨s.draws + k, by simp [hostRead, hp]⟩
  | pal k => exact ⟨s.draws + k, by simp [hostRead, hp]⟩
  | reg r => exact ⟨s.draws, by simp [hostRead, hp]⟩

/-- Settles O19: a legal read is that of CMAP, PAL or a register. -/
theorem legalReadHasNoSideEffect : Obligations.LegalReadHasNoSideEffect := by
  intro s a n hl
  obtain ⟨d, hd⟩ := hostRead_legal hl s
  simp [hostTxn, hd]

/-! ### The registers bit by bit -/

/-- Settles O20: each register's word, bit by bit or byte by byte. -/
theorem registersRead : Obligations.RegistersRead := by
  intro s
  obtain ⟨hr, hg, hb, htop⟩ := byteOfWord_wordOfBytes s.target.r s.target.g s.target.b 0#8
  simp only [hostRead_id, hostRead_cmd, hostRead_status, hostRead_irqEn, hostRead_target, hostRead_result, hostRead_mindist]
  refine ⟨trivial, trivial, fun k => ?_, fun k => ?_, ⟨hr, hg, hb, htop⟩, trivial, ?_⟩
  · rw [getLsbD_statusWord]
    split_ifs <;> simp_all
  · rw [getLsbD_irqEnWord]
    split_ifs <;> simp_all
  · exact BitVec.toNat_setWidth_of_le (by decide)

/-- TARGET keeps a written word but for its reserved byte (R29). -/
theorem unpack_and_mask (w : Word) : unpack (w &&& 0x00FFFFFF#32) = unpack w := by
  rw [← pack_unpack, unpack_pack]

/-- A write to STATUS acts through its bits 1 and 8-11 only (R26). -/
theorem clearStatus_and_mask (w : Word) (s : State) : clearStatus (w &&& 0x00000F07#32) s = clearStatus w s := by
  simp [clearStatus, Err.code]

/-- Settles O21: the reads by their bits, the writes because they act through the other bits only. -/
theorem reservedBitsReadZeroAndIgnoreWrites : Obligations.ReservedBitsReadZeroAndIgnoreWrites := by
  intro s w
  simp only [hostRead_status, hostRead_irqEn, hostRead_target, hostRead_mindist, hostWrite_status, hostWrite_irqEn,
    hostWrite_target, unpack_and_mask, clearStatus_and_mask]
  refine ⟨?_, ?_, ?_, ?_, trivial, by simp, trivial, trivial, trivial, fun h => (Bool.and_eq_true_iff.1 h).1⟩
  · rw [← unpack_pack s.target, pack_unpack, BitVec.and_assoc]
    simp
  · refine BitVec.eq_of_getLsbD_eq fun i hi => ?_
    rw [BitVec.getLsbD_and, getLsbD_irqEnWord]
    interval_cases i <;> simp
  · refine BitVec.eq_of_getLsbD_eq fun i hi => ?_
    rw [BitVec.getLsbD_and, getLsbD_statusWord]
    interval_cases i <;> simp
  · refine BitVec.eq_of_getLsbD_eq fun i hi => ?_
    interval_cases i <;> simp

/-- STATUS after a write of w: the bits of the mask that are 1 in w are cleared (R26). -/
theorem statusWord_clearStatus (w : Word) (s : State) :
    statusWord (clearStatus w s) = statusWord s &&& ~~~(w &&& 0x00000F02#32) := by
  refine BitVec.eq_of_getLsbD_eq fun i hi => ?_
  simp only [BitVec.getLsbD_and, BitVec.getLsbD_not, getLsbD_statusWord]
  interval_cases i <;> simp

/-- Settles O22: the state after the write is `clearStatus`. -/
theorem statusWriteOneClears : Obligations.StatusWriteOneClears :=
  fun s w => ⟨clearStatus w s, hostWrite_status w s, statusWord_clearStatus w s, rfl⟩

/-- Settles O23: a packed triple drops the reserved byte, and IRQ_EN has two bits. -/
theorem targetAndEnablesReadBack : Obligations.TargetAndEnablesReadBack := by
  intro s w
  simp only [hostRead_irqEn, hostRead_target, hostWrite_irqEn, hostWrite_target, pack_unpack, true_and]
  refine ⟨?_, trivial⟩
  refine BitVec.eq_of_getLsbD_eq fun i hi => ?_
  rw [BitVec.getLsbD_and, getLsbD_irqEnWord]
  interval_cases i <;> simp

/-! ### Reset (R39) -/

theorem pack_black : pack Triple.black = 0#32 := by decide

theorem statusWord_resetBlock (b : Bool) (s : State) : statusWord (resetBlock b s) = 0#32 := by
  simp [statusWord, flagAt]

theorem irqEnWord_resetBlock (b : Bool) (s : State) : irqEnWord (resetBlock b s) = 0#32 := by
  simp [irqEnWord, flagAt]

/-- Settles O50: the registers' words are closed terms. -/
theorem resetValues : Obligations.ResetValues := by
  simp only [Obligations.ResetValues, hostRead_id, hostRead_status, hostRead_irqEn, hostRead_target, hostRead_result,
    hostRead_mindist]
  exact ⟨trivial, by decide, by decide, by decide, rfl, by decide, rfl, rfl, rfl, fun _ => rfl⟩

/-- Settles O51: the state after the turn is `resetBlock`. -/
theorem resetTurnResetsTheBlock : Obligations.ResetTurnResetsTheBlock := by
  intro s b rest hs
  refine ⟨resetBlock b { s with sched := rest }, by simp [step, nextTurn, hs, takeTurn], ?_⟩
  exact ⟨statusWord_resetBlock .., irqEnWord_resetBlock .., pack_black, rfl, rfl, rfl, rfl, rfl, rfl, fun _ => rfl, rfl, rfl⟩

end Sys2Proof.Machine
end

section
/-! SUPPORT. What the commands read of PAL, and what GEN writes to CMAP (R40, R104). -/

namespace Sys2Proof.Machine

/-! ### Faults -/

theorem exec_fault_iff {i : Instr} {s : State} : (∃ f, exec i s = .fault f) ↔ MissesPal i s.mem :=
  ⟨fun ⟨_, hf⟩ => ((exec_outcome i s).of_fault hf).2, fun h => ⟨_, h.fault⟩⟩

theorem palette_eq_none_iff_inPal {m : Memory} : palette m = none ↔ ∃ a, InPal a ∧ Memory.read m a = none := by
  simp only [palette_eq_none_iff, InPal, and_assoc]

theorem fullbright_eq_false_iff {x : Index} : fullbright x = false ↔ x.toNat < 224 := by
  rw [← Bool.not_eq_true, fullbright_iff, not_le]

/-- Settles O38: a command misses PAL exactly where the rule of its operands says so. -/
theorem completionFaultsExactlyOnUnwrittenPal : Obligations.CompletionFaultsExactlyOnUnwrittenPal := by
  intro i s
  refine ⟨fun P => palette_eq_some_iff.trans (forall_congr' fun k => palEntry_eq_some_iff), (exec_outcome i s).ne_refused,
    exec_fault_iff.trans ?_⟩
  cases i with
  | nop | dim => exact Iff.rfl
  | dist | dimp => exact palEntry_eq_none_iff
  | quant => exact and_congr fullbright_eq_false_iff palette_eq_none_iff_inPal
  | matchTarget | gen => exact palette_eq_none_iff_inPal

/-! ### GEN -/

theorem exec_gen {s : State} {P : Palette} (hP : palette s.mem = some P) :
    exec .gen s = .next { s with
      mem := writeCells P (genTodo s.genProgress) s.mem
      cmapValid := true, genProgress := [], busy := false, done := true } :=
  withPalette_eq_next.2 ⟨P, hP, rfl⟩

/-- The completion of GEN writes the cells that the run has not yet written. -/
theorem read_cell_genTodo (P : Palette) (written : List Nat) (m : Memory) (y : Level) (x : Index) :
    Memory.read (writeCells P (genTodo written) m) (cellAddr y x) =
      if cellAddr y x ∈ written then Memory.read m (cellAddr y x) else some (cell P y x) := by
  rw [read_writeCells, levelOfCell_cellAddr, indexOfCell_cellAddr]
  by_cases h : cellAddr y x ∈ written <;> simp [mem_genTodo, cellAddr_lt, h]

/-- It leaves every byte outside CMAP. -/
theorem read_genTodo_outside (P : Palette) (written : List Nat) (m : Memory) {a : Nat} (ha : Config.cmapBytes ≤ a) :
    Memory.read (writeCells P (genTodo written) m) a = Memory.read m a := by
  rw [read_writeCells, if_neg]
  exact fun h => absurd (mem_genTodo.1 h).1 (not_lt.2 ha)

/-- Settles O35: the bytes of CMAP by whether the run has written them, the others unchanged. -/
theorem genCompletes : Obligations.GenCompletes := by
  intro s P hP
  exact ⟨_, exec_gen hP, rfl, read_cell_genTodo P s.genProgress s.mem,
    fun a ha => read_genTodo_outside P s.genProgress s.mem ha⟩

/-! ### One cell -/

theorem genCell_written {s : State} {y : Level} {x : Index} (h : cellAddr y x ∈ s.genProgress) :
    genCell y x s = .next s := by
  simp [genCell, h]

theorem genCell_fresh {s : State} {y : Level} {x : Index} {b : Byte} (hgen : generating s = true)
    (hfresh : cellAddr y x ∉ s.genProgress) (hvalue : cellOf s.mem y x = some b) :
    genCell y x s = .next { s with
      mem := Memory.write s.mem (cellAddr y x) b
      genProgress := insertRising (cellAddr y x) s.genProgress } := by
  simp [genCell, hgen, hfresh, hvalue]

/-- A fullbright cell's value needs no palette (R101). -/
theorem cellOf_fullbright {x : Index} (h : fullbright x = true) (m : Memory) (y : Level) : cellOf m y x = some x := by
  simp [cellOf, h]

theorem step_cell {s : State} {y : Level} {x : Index} {rest : List Turn} (h : s.sched = .cell y x :: rest) :
    step s = genCell y x { s with sched := rest } := by
  simp [step, nextTurn, h, takeTurn]

/-- Settles O37: by whether the run has written the cell. -/
theorem genWritesEachCellOnce : Obligations.GenWritesEachCellOnce := by
  intro s y x rest hsched hgen
  rw [step_cell hsched]
  refine ⟨fun hwritten => genCell_written hwritten, fun b hfresh hb => ?_⟩
  have hvalue : cellOf s.mem y x = some b := by
    obtain ⟨hx, rfl⟩ | ⟨P, hP, rfl⟩ := hb
    · exact cellOf_fullbright (fullbright_iff.2 hx) s.mem y
    · exact cellOf_of_palette hP y x
  exact ⟨_, genCell_fresh hgen hfresh hvalue, rfl, Memory.read_write_same .., fun a ha => Memory.read_write_other _ _ ha,
    fun a => mem_insertRising⟩

/-! ### The table as the host reads it -/

/-- A word the host reads from CMAP is the four bytes of that read, lowest address first (R44, R47). -/
theorem byteOfWord_hostRead_cmap {s : State} {a : Addr} (ha : a.toNat < Config.palBase) (halign : a.toNat % 4 = 0) {k : Nat}
    (hk : k < 4) : byteOfWord (hostRead a 4 s).1 k = readByte s a.toNat k := by
  have hread : (hostRead a 4 s).1 = readMem s a.toNat 4 := by
    simp [hostRead, placeOf_cmap_iff.2 ⟨rfl, .inr ⟨rfl, halign⟩, ha⟩]
  obtain ⟨h0, h1, h2, h3⟩ := byteOfWord_wordOfBytes (readByte s a.toNat 0) (readByte s a.toNat 1) (readByte s a.toNat 2)
    (readByte s a.toNat 3)
  rw [hread]
  interval_cases k
  exacts [h0, h1, h2, h3]

theorem readByte_of_read {s : State} {a k : Nat} {b : Byte} (hgen : generating s = false)
    (h : Memory.read s.mem (a + k) = some b) : readByte s a k = b := by
  simp [readByte, hostByte, hgen, h]

/-- The cells of an aligned word lie in one row of the table (R44). -/
theorem cellAddr_of_aligned {a k : Nat} (ha : a < 0x4000) (halign : a % 4 = 0) (hk : k < 4) :
    cellAddr (BitVec.ofNat 6 (a / 256)) (BitVec.ofNat 8 (a % 256 + k)) = a + k := by
  simp only [cellAddr, BitVec.toNat_ofNat]
  omega

/-- Settles O60: the table is right by the invariant, and no GEN hides it. -/
theorem validTableReadsAsTheCells : Obligations.ValidTableReadsAsTheCells := by
  intro s a hs hvalid ha halign
  obtain ⟨P, hP, htable⟩ := hs.validTable hvalid
  refine ⟨P, hP, fun k hk => ?_⟩
  have hcell := htable (BitVec.ofNat 6 (a.toNat / 256)) (BitVec.ofNat 8 (a.toNat % 256 + k))
  rw [cellAddr_of_aligned ha halign hk] at hcell
  exact (byteOfWord_hostRead_cmap ha halign hk).trans (readByte_of_read (hs.validNotGenerating hvalid) hcell)

end Sys2Proof.Machine
end

section
/-! SUPPORT. Host transactions with memory: bad accesses, writes to PAL, and the bytes a read returns (R45-R54). -/

namespace Sys2Proof.Machine

/-! ### Bad accesses (R45, R46) -/

theorem placeOf_eq_none_iff {a : Addr} {n : Nat} : placeOf a n = none ↔ ¬ LegalAccess a n := by
  rw [legal_iff, Option.eq_none_iff_forall_ne_some, not_exists]

/-- Settles O13: a bad access has no place. -/
theorem badAccessOnlyRaisesErrAcc : Obligations.BadAccessOnlyRaisesErrAcc := by
  intro s a n hbad
  have hplace := placeOf_eq_none_iff.2 hbad
  exact ⟨by simp [hostRead, hplace, raise], fun v => by simp [hostWrite, hplace, raise]⟩

/-- A legal access is of one byte or of one aligned word (R45). -/
theorem LegalAccess.size {a : Addr} {n : Nat} (h : LegalAccess a n) : n = 1 ∨ n = 4 ∧ a.toNat % 4 = 0 :=
  h.imp And.left fun ⟨hn, halign, _⟩ => ⟨hn, halign⟩

/-! ### Writes to PAL (R51) -/

theorem hostWrite_pal_idle {s : State} {a : Addr} {n : Nat} (hl : LegalAccess a n) (hpal : InPal a.toNat)
    (hidle : s.busy = false) (v : Word) :
    hostWrite a n v s = { s with mem := writeMem s.mem a.toNat n v, cmapValid := false } := by
  simp [hostWrite, placeOf_pal_iff.2 ⟨rfl, hl.size, hpal⟩, palWrite, hidle]

/-- Settles O16: the write is `writeMem`, byte by byte. -/
theorem paletteWriteWhileIdle : Obligations.PaletteWriteWhileIdle := by
  intro s a n v hl hpal hidle
  have hread := read_writeMem s.mem a.toNat n v (hl.size.imp_right And.left)
  refine ⟨_, hostWrite_pal_idle hl hpal hidle v, rfl, fun k hk => ?_, fun a' ha' => ?_⟩
  · rw [hread, if_pos (by omega), Nat.add_sub_cancel_left]
    rfl
  · rw [hread, if_neg (by omega)]

/-! ### Reads of CMAP and PAL (R52, R53) -/

/-- A legal read below the end of PAL is that of memory (R41). -/
theorem hostRead_memory {a : Addr} {n : Nat} (hl : LegalAccess a n) (ha : a.toNat < Config.palEnd) (s : State) :
    (hostRead a n s).1 = readMem s a.toNat n := by
  by_cases hcmap : a.toNat < Config.palBase
  · simp [hostRead, placeOf_cmap_iff.2 ⟨rfl, hl.size, hcmap⟩]
  · simp [hostRead, placeOf_pal_iff.2 ⟨rfl, hl.size, not_lt.1 hcmap, ha⟩]

/-- The bytes of a read of n bytes (1 or 4), lowest address first, and 0 above them (R47; log 15). -/
theorem byteOfWord_readMem (s : State) (a : Nat) {n k : Nat} (hn : n = 1 ∨ n = 4) (hk : k < 4) :
    byteOfWord (readMem s a n) k = if k < n then readByte s a k else 0#8 := by
  obtain rfl | rfl := hn
  · have hword : readMem s a 1 = wordOfBytes (readByte s a 0) 0#8 0#8 0#8 := by simp [readMem, wordOfBytes]
    obtain ⟨h0, h1, h2, h3⟩ := byteOfWord_wordOfBytes (readByte s a 0) 0#8 0#8 0#8
    rw [hword]
    interval_cases k
    exacts [h0, h1, h2, h3]
  · obtain ⟨h0, h1, h2, h3⟩ := byteOfWord_wordOfBytes (readByte s a 0) (readByte s a 1) (readByte s a 2) (readByte s a 3)
    rw [if_pos hk]
    interval_cases k
    exacts [h0, h1, h2, h3]

/-- A read of memory depends on its n bytes (1 or 4) only. -/
theorem readMem_congr {s t : State} {a n : Nat} (hn : n = 1 ∨ n = 4) (h : ∀ k < n, readByte s a k = readByte t a k) :
    readMem s a n = readMem t a n := by
  obtain rfl | rfl := hn
  · simp [readMem, h 0]
  · simp [readMem, h 0, h 1, h 2, h 3]

/-- A written byte is read as it is stored: in PAL always, in CMAP while no GEN is in progress (R52, R53). -/
theorem readByte_stored {s : State} {a k : Nat} {b : Byte} (hvisible : Config.palBase ≤ a + k ∨ generating s = false)
    (h : Memory.read s.mem (a + k) = some b) : readByte s a k = b := by
  have hshown : ¬ (generating s = true ∧ a + k < Config.palBase) := by
    rintro ⟨hgen, hcmap⟩
    obtain hpal | hidle := hvisible
    · exact not_lt.2 hpal hcmap
    · simp [hgen] at hidle
  rw [readByte, hostByte, if_neg hshown, h, Option.getD_some]

/-- A byte of CMAP is read as a free byte while GEN is in progress (R53; log 5). -/
theorem readByte_generating {s : State} {a k : Nat} (hgen : generating s = true) (hcmap : a + k < Config.palBase) :
    readByte s a k = Config.freeByte (s.draws + k) := by
  rw [readByte, hostByte, if_pos ⟨hgen, hcmap⟩, Option.getD_none]

/-- Settles O17: the word read is `readMem`, byte by byte. -/
theorem memoryReadReturnsStoredBytes : Obligations.MemoryReadReturnsStoredBytes := by
  intro s a n hl ha hvisible
  have hsize : n = 1 ∨ n = 4 := hl.size.imp_right And.left
  rw [hostRead_memory hl ha]
  refine ⟨fun k b hk hb => ?_, fun k hk hk4 => ?_⟩
  · have hbyte : readByte s a.toNat k = b :=
      readByte_stored (hvisible.imp_left fun hpal => hpal.1.trans (Nat.le_add_right ..)) hb
    exact (byteOfWord_readMem s a.toNat hsize (by omega)).trans ((if_pos hk).trans hbyte)
  · exact (byteOfWord_readMem s a.toNat hsize hk4).trans (if_neg (not_lt.2 hk))

/-- Settles O18: an aligned word of CMAP lies in CMAP whole, so each byte of the read is free. -/
theorem readDuringGenTellsNothing : Obligations.ReadDuringGenTellsNothing := by
  intro s a n m p hl ha hgen
  have hmem : a.toNat < Config.palEnd := ha.trans (by decide)
  rw [hostRead_memory hl hmem, hostRead_memory hl hmem]
  refine readMem_congr (hl.size.imp_right And.left) fun k hk => ?_
  have hcmap : a.toNat + k < Config.palBase := by
    have hsize := hl.size
    simp only [Config.palBase]
    omega
  have hgen' : generating { s with mem := m, genProgress := p } = true := hgen
  rw [readByte_generating hgen hcmap, readByte_generating hgen' hcmap]

end Sys2Proof.Machine
end

section
/-! SUPPORT. LOADPAL as the host performs it: its word writes store the image byte after byte (R72). -/

namespace Sys2Proof.Machine

/-- The memory with these bytes written one after the other from this address on. -/
def storeBytes : List Byte → Nat → Memory → Memory
  | [], _, m => m
  | b :: bs, a, m => storeBytes bs (a + 1) (Memory.write m a b)

theorem read_storeBytes (bs : List Byte) (a : Nat) (m : Memory) (x : Nat) :
    Memory.read (storeBytes bs a m) x = if a ≤ x ∧ x < a + bs.length then bs[x - a]? else Memory.read m x := by
  induction bs generalizing a m with
  | nil => rw [if_neg (by simp)]; rfl
  | cons b bs ih =>
    rw [storeBytes, ih, Memory.read_write, List.length_cons]
    obtain hlt | rfl | hgt := Nat.lt_trichotomy x a
    · rw [if_neg (by omega), if_neg (by omega), if_neg (by omega)]
    · rw [if_neg (by omega), if_pos rfl, if_pos (by omega), Nat.sub_self, List.getElem?_cons_zero]
    · have hsub : x - a = x - (a + 1) + 1 := by omega
      rw [if_neg (Nat.ne_of_gt hgt), hsub, List.getElem?_cons_succ]
      exact if_congr (by omega) rfl rfl

/-- A word write stores the word's four bytes (R47). -/
theorem storeBytes_word (b0 b1 b2 b3 : Byte) (rest : List Byte) (a : Nat) (m : Memory) :
    storeBytes (b0 :: b1 :: b2 :: b3 :: rest) a m =
      storeBytes rest (a + 4) (writeMem m a 4 (wordOfBytes b0 b1 b2 b3)) := by
  obtain ⟨h0, h1, h2, h3⟩ := byteOfWord_wordOfBytes b0 b1 b2 b3
  simp [storeBytes, writeMem, h0, h1, h2, h3]

theorem opEffect_wr32 (a : Addr) (v : Word) (s : State) : opEffect (wr32 a v) s = hostWrite a 4 v s := by
  simp [opEffect, wr32, txnOf_write (.inl rfl) (.inl rfl), hostTxn]

/-- A word write of LOADPAL, at an aligned address of PAL. -/
theorem opEffect_wr32_pal {s : State} {a : Nat} (hidle : s.busy = false) (hpal : InPal a) (halign : a % 4 = 0) (v : Word) :
    opEffect (wr32 (BitVec.ofNat 16 a) v) s = { s with mem := writeMem s.mem a 4 v, cmapValid := false } := by
  have ha : (BitVec.ofNat 16 a).toNat = a := by
    rw [BitVec.toNat_ofNat]
    unfold InPal at hpal
    omega
  have hl : LegalAccess (BitVec.ofNat 16 a) 4 := .inr ⟨rfl, ha.symm ▸ halign, .inl (ha.symm ▸ hpal.2)⟩
  rw [opEffect_wr32, hostWrite_pal_idle hl (ha.symm ▸ hpal) hidle, ha]

/-- The writes of a list of whole words, in PAL, store its bytes; CMAP_VALID is cleared as soon as there is one. -/
theorem foldl_loadWords (bytes : List Byte) (a : Nat) {s : State} (hidle : s.busy = false) (hwords : bytes.length % 4 = 0)
    (hlow : Config.palBase ≤ a) (hhigh : a + bytes.length ≤ Config.palEnd) (halign : a % 4 = 0) :
    (loadWords bytes a).foldl (fun s op => opEffect op s) s =
      { s with mem := storeBytes bytes a s.mem, cmapValid := s.cmapValid && bytes.isEmpty } := by
  induction bytes, a using loadWords.induct generalizing s with
  | case1 b0 b1 b2 b3 rest a ih =>
    simp only [List.length_cons] at hwords hhigh
    have hpal : InPal a := ⟨hlow, by simp only [Config.palEnd] at hhigh; omega⟩
    rw [loadWords, List.foldl_cons, opEffect_wr32_pal hidle hpal halign,
      ih (by exact hidle) (by omega) (by omega) (by omega) (by omega), storeBytes_word]
    simp
  | case2 bytes a hshort =>
    have hnil : bytes = [] := by
      match bytes with
      | [] => rfl
      | [_] | [_, _] | [_, _, _] => simp at hwords
      | b0 :: b1 :: b2 :: b3 :: rest => exact (hshort b0 b1 b2 b3 rest rfl).elim
    subst hnil
    simp [loadWords, storeBytes]

/-- Settles O24: the image's 192 words fill PAL. -/
theorem loadPalStoresTheImage : Obligations.LoadPalStoresTheImage := by
  intro s image ops hidle hassemble
  obtain ⟨hsize, rfl⟩ : image.length = 768 ∧ loadWords image 0x4000 = ops := by
    simpa [assemble, Stmt.wf, expand] using hassemble
  have hvalid : (s.cmapValid && image.isEmpty) = false := by
    have hne : image ≠ [] := List.ne_nil_of_length_pos (by omega)
    simp [hne]
  have hload := foldl_loadWords image 0x4000 hidle (by omega) le_rfl (by simp [hsize]) rfl
  rw [hvalid] at hload
  refine ⟨_, hload, rfl, fun j hj => ?_, fun a ha => ?_⟩
  · rw [read_storeBytes, if_pos (by omega), Nat.add_sub_cancel_left]
  · rw [read_storeBytes, if_neg]
    simpa only [hsize] using ha

end Sys2Proof.Machine
end

section
/-! SUPPORT. A turn of the host: the next operation of its program, and the names it binds (R58, R71). -/

namespace Sys2Proof.Machine

theorem HostIsNext.step_eq {s : State} {rest : List Turn} (h : HostIsNext s rest) :
    step s = .next (hostTurn { s with sched := rest }) := by
  obtain hsched | ⟨hsched, rfl, hidle⟩ := h
  · simp [step, nextTurn, hsched, takeTurn]
  · have hs : { s with sched := [] } = s := by rw [← hsched]
    rw [hs]
    simp [step, nextTurn, hsched, hidle, takeTurn]

/-- Out of reset, that step performs the next operation. -/
theorem HostIsNext.step_op {s : State} {rest : List Turn} {op : HostOp} {ops : List HostOp} (h : HostIsNext s rest)
    (hrun : s.rst = false) (hhost : s.host = op :: ops) : step s = .next (performOp op ops { s with sched := rest }) := by
  rw [h.step_eq]
  exact congrArg _ (hostTurn_op hrun hhost)

/-- A read does not depend on the schedule, and leaves it. -/
theorem hostRead_sched (a : Addr) (n : Nat) (s : State) (rest : List Turn) :
    hostRead a n { s with sched := rest } = ((hostRead a n s).1, { (hostRead a n s).2 with sched := rest }) := by
  unfold hostRead
  cases placeOf a n with
  | none => rfl
  | some p =>
    cases p with
    | cmap | pal => rfl
    | reg r => cases r <;> rfl

/-- No transaction binds a name: the host does (R71). -/
theorem TxnEffect.names_eq {s t : State} {x : Txn} (h : TxnEffect s x t) : t.names = s.names := by
  cases h <;> rfl

/-- What a read's `-> name` leaves bound (R71). -/
theorem bindName_read (o : Operand) (n : Nat) (b : Option Name) (v : Word) (names : List (Name × Word)) :
    (b = none → bindName (.read o n b) v names = names) ∧
      ∀ name, b = some name → (bindName (.read o n b) v names).lookup name = some v ∧
        ∀ other, other ≠ name → (bindName (.read o n b) v names).lookup other = names.lookup other := by
  refine ⟨?_, ?_⟩
  · rintro rfl
    rfl
  · rintro name rfl
    exact ⟨by rw [lookup_bindName, if_pos rfl], fun other hother => by rw [lookup_bindName, if_neg hother]⟩

theorem performOp_write {s : State} {oa ov : Operand} {a : Addr} {v : Word} (ha : StandsFor s oa (a.setWidth 32))
    (hv : StandsFor s ov v) (n : Nat) (ops : List HostOp) :
    performOp (.write oa n ov) ops s = { hostWrite a n v s with host := ops } := by
  have hnames : (hostWrite a n v s).names = s.names := (hostTxn_effect (.write a n v) s).names_eq
  rw [performOp_txn (txnOf_write ha hv n)]
  simp [hostTxn, repeats, bindName, ← hnames]

theorem performOp_read {s : State} {oa : Operand} {a : Addr} (ha : StandsFor s oa (a.setWidth 32)) (n : Nat)
    (b : Option Name) (ops : List HostOp) :
    performOp (.read oa n b) ops s = { (hostRead a n s).2 with
      host := ops
      names := bindName (.read oa n b) (hostRead a n s).1 s.names
      replies := (hostRead a n s).1 :: s.replies } := by
  have hvalue : opValue s (.read oa n b) = (hostRead a n s).1 := by simp [opValue, txnOf_read ha]
  rw [performOp_txn (txnOf_read ha n b), hvalue]
  simp [hostTxn, repeats]

/-- Settles O8: what `performOp` does, by whether the address lies in the block's 16 bits. -/
theorem hostTurnPerformsTheNextTransaction : Obligations.HostTurnPerformsTheNextTransaction := by
  intro s rest ops oa w n hnext hw
  have hw' : StandsFor { s with sched := rest } oa w := hw
  refine ⟨fun hreset => ?_, fun hrun a ha => ⟨fun ov v hhost hv => ?_, fun b hhost => ?_⟩,
    fun hrun hout => ⟨fun ov hhost => ?_, fun b hhost => ?_⟩⟩
  · rw [hnext.step_eq]
    simp [hostTurn, hreset]
  · have hv' : StandsFor { s with sched := rest } ov v := hv
    subst ha
    rw [hnext.step_op hrun hhost, performOp_write hw' hv']
  · subst ha
    rw [hnext.step_op hrun hhost, performOp_read hw', hostRead_sched]
    exact ⟨_, rfl, rfl, bindName_read ..⟩
  · rw [hnext.step_op hrun hhost, performOp_outside (txnOf_outside hw' hout n ov none).1]
    exact ⟨_, rfl, rfl⟩
  · rw [hnext.step_op hrun hhost, performOp_outside (txnOf_outside hw' hout n oa b).2]
    obtain ⟨hnone, hsome⟩ := bindName_read oa n b (opValue { s with sched := rest } (.read oa n b)) s.names
    refine ⟨_, rfl, rfl, hnone, fun name hb => ?_⟩
    obtain ⟨hname, hothers⟩ := hsome name hb
    exact ⟨Option.isSome_of_eq_some hname, hothers⟩

end Sys2Proof.Machine
end

section
/-! SUPPORT. Which words decode, by their fields (R66-R69), and the rows of the opcode map (R67). -/

namespace Sys2Proof

/-! ### Decode and encode are inverse (R68, R70) -/

/-- A word with a command's fields, the reserved ones 0, is the command's word. -/
theorem encode_eq_of_fields {w : Word} {i : Instr}
    (h : (rsv0Field w = 0#4 ∧ rsv1Field w = 0#2 ∧ rsv2Field w = 0#8) ∧
      opField w = i.op ∧ levelField w = i.level ∧ indexField w = i.index) : encode i = w := by
  obtain ⟨⟨h0, h1, h2⟩, hop, hlvl, hidx⟩ := h
  rw [encode, ← hop, ← hlvl, ← hidx, cmdWord_of_fields h0 h1 h2]

/-- Decode reads the fields alone: the reserved ones are 0 and the others are the command's. -/
theorem decodeWord_eq_ok_iff_fields {w : Word} {i : Instr} :
    decodeWord w = .ok i ↔ (rsv0Field w = 0#4 ∧ rsv1Field w = 0#2 ∧ rsv2Field w = 0#8) ∧
      opField w = i.op ∧ levelField w = i.level ∧ indexField w = i.index := by
  refine ⟨fields_of_decodeWord, fun h => ?_⟩
  rw [← encode_eq_of_fields h, decodeWord_encode]

/-- Settles O1: the word decodes to its command, and the four bytes of a word are the word. -/
theorem decodeEncodeRoundTrip : Obligations.DecodeEncodeRoundTrip := fun i rest =>
  ⟨decodeWord_encode i, by rw [decode_wordBytes, decodeWord_encode]; rfl⟩

/-- Settles O2: a word that decodes is made of its command's fields. -/
theorem decodedWordIsItsEncoding : Obligations.DecodedWordIsItsEncoding := fun _ _ h =>
  encode_eq_of_fields (fields_of_decodeWord h)

/-- Settles O6: each word is a closed term. -/
theorem wordsOfTheSpecDecode : Obligations.WordsOfTheSpecDecode := by
  unfold Obligations.WordsOfTheSpecDecode
  decide

/-! ### Which words decode (R66, R69) -/

theorem decodeWord_error_iff {w : Word} : (∃ e, decodeWord w = .error e) ↔ ¬ ∃ i, decodeWord w = .ok i := by
  cases decodeWord w <;> simp

/-- The fields OP, LEVEL and INDEX that some command has: OP is below 7, and a field that OP does not use is 0 (R66). -/
theorem exists_instr_fields_iff {op : BitVec 4} {lvl : Level} {idx : Index} :
    (∃ i : Instr, op = i.op ∧ lvl = i.level ∧ idx = i.index) ↔
      op.toNat < 7 ∧ (op.toNat ∈ [0, 1, 2, 6] → lvl = 0#6) ∧ (op.toNat ∈ [0, 2, 3, 6] → idx = 0#8) := by
  constructor
  · rintro ⟨i, rfl, rfl, rfl⟩
    cases i <;> simp [Instr.op, Instr.level, Instr.index]
  · rintro ⟨hop, hlvl, hidx⟩
    have hcode : op = BitVec.ofNat 4 op.toNat := by simp
    generalize op.toNat = n at hop hlvl hidx hcode
    subst hcode
    interval_cases n
    · exact ⟨.nop, rfl, hlvl (by decide), hidx (by decide)⟩
    · exact ⟨.dist idx, rfl, hlvl (by decide), rfl⟩
    · exact ⟨.matchTarget, rfl, hlvl (by decide), hidx (by decide)⟩
    · exact ⟨.dim lvl, rfl, rfl, hidx (by decide)⟩
    · exact ⟨.dimp lvl idx, rfl, rfl, rfl⟩
    · exact ⟨.quant lvl idx, rfl, rfl, rfl⟩
    · exact ⟨.gen, rfl, hlvl (by decide), hidx (by decide)⟩

/-- A word decodes when its reserved fields are 0 and its other fields are some command's. -/
theorem decodes_iff {w : Word} :
    (∃ i, decodeWord w = .ok i) ↔ (rsv0Field w = 0#4 ∧ rsv1Field w = 0#2 ∧ rsv2Field w = 0#8) ∧
      (opField w).toNat < 7 ∧ ((opField w).toNat ∈ [0, 1, 2, 6] → levelField w = 0#6) ∧
        ((opField w).toNat ∈ [0, 2, 3, 6] → indexField w = 0#8) := by
  simp only [decodeWord_eq_ok_iff_fields, exists_and_left, exists_instr_fields_iff]

/-- Settles O4: the illegal words are those that `decodes_iff` leaves out. -/
theorem illegalWordsExactly : Obligations.IllegalWordsExactly := by
  intro w
  rw [decodeWord_error_iff, decodes_iff, ← not_le]
  simp only [opField, rsv0Field, levelField, rsv1Field, indexField, rsv2Field]
  tauto

/-! ### The rows of the opcode map (R67) -/

theorem getLsbD_eq_of_extractLsb'_eq {w v : Word} {start len i : Nat}
    (h : w.extractLsb' start len = v.extractLsb' start len) (hlo : start ≤ i) (hhi : i < start + len) :
    w.getLsbD i = v.getLsbD i := by
  have hbit := congrArg (fun field => field.getLsbD (i - start)) h
  have hlen : i - start < len := by omega
  simpa [hlen, hlo] using hbit

/-- Two words are equal when their fields are (R64). -/
theorem word_eq_iff_fields {w v : Word} :
    w = v ↔ (rsv0Field w = rsv0Field v ∧ rsv1Field w = rsv1Field v ∧ rsv2Field w = rsv2Field v) ∧
      opField w = opField v ∧ levelField w = levelField v ∧ indexField w = indexField v := by
  refine ⟨by rintro rfl; simp, ?_⟩
  rintro ⟨⟨h0, h1, h2⟩, hop, hlvl, hidx⟩
  refine BitVec.eq_of_getLsbD_eq fun i hi => ?_
  obtain h | h | h | h | h | h : i < 4 ∨ (4 ≤ i ∧ i < 8) ∨ (8 ≤ i ∧ i < 14) ∨ (14 ≤ i ∧ i < 16) ∨
    (16 ≤ i ∧ i < 24) ∨ 24 ≤ i := by omega
  · exact getLsbD_eq_of_extractLsb'_eq hop i.zero_le h
  · exact getLsbD_eq_of_extractLsb'_eq h0 h.1 h.2
  · exact getLsbD_eq_of_extractLsb'_eq hlvl h.1 h.2
  · exact getLsbD_eq_of_extractLsb'_eq h1 h.1 h.2
  · exact getLsbD_eq_of_extractLsb'_eq hidx h.1 h.2
  · exact getLsbD_eq_of_extractLsb'_eq h2 h hi

/-- A word selects a row when each of its fields does. -/
theorem selects_iff_fields {r : OpRow} {w : Word} :
    r.selects w ↔
      (rsv0Field w &&& rsv0Field r.mask = rsv0Field r.val ∧ rsv1Field w &&& rsv1Field r.mask = rsv1Field r.val ∧
        rsv2Field w &&& rsv2Field r.mask = rsv2Field r.val) ∧
      opField w &&& opField r.mask = opField r.val ∧ levelField w &&& levelField r.mask = levelField r.val ∧
        indexField w &&& indexField r.mask = indexField r.val := by
  rw [OpRow.selects, word_eq_iff_fields]
  simp only [opField, rsv0Field, levelField, rsv1Field, indexField, rsv2Field, BitVec.extractLsb'_and]

theorem Instr.exists_iff {p : Instr → Prop} :
    (∃ i, p i) ↔ p .nop ∨ (∃ idx, p (.dist idx)) ∨ p .matchTarget ∨ (∃ lvl, p (.dim lvl)) ∨
      (∃ lvl idx, p (.dimp lvl idx)) ∨ (∃ lvl idx, p (.quant lvl idx)) ∨ p .gen := by
  constructor
  · rintro ⟨i, hi⟩
    cases i <;> grind
  · grind

/-- A row's mask has every bit of OP and of the reserved fields; of LEVEL and INDEX it has every bit where the row's command
does not use the field, and none where it does. -/
theorem selects_iff_decodes {r : OpRow} (hr : r ∈ opcodeTable) {w : Word} :
    r.selects w ↔ ∃ i, decodeWord w = .ok i ∧ i.mnemonic = r.mnemonic := by
  have all2 (x : BitVec 2) : x &&& 3#2 = x := BitVec.and_allOnes
  have all4 (x : BitVec 4) : x &&& 15#4 = x := BitVec.and_allOnes
  have all6 (x : BitVec 6) : x &&& 63#6 = x := BitVec.and_allOnes
  have all8 (x : BitVec 8) : x &&& 255#8 = x := BitVec.and_allOnes
  simp only [opcodeTable, List.mem_cons, List.not_mem_nil, or_false] at hr
  rw [selects_iff_fields]
  simp only [decodeWord_eq_ok_iff_fields, Instr.exists_iff, opField, rsv0Field, levelField, rsv1Field, indexField, rsv2Field]
  rcases hr with rfl | rfl | rfl | rfl | rfl | rfl | rfl <;>
    simp [all2, all4, all6, all8, Instr.mnemonic, Instr.op, Instr.level, Instr.index]

/-- Settles O3: a word selects a row exactly when it decodes to a command with the row's mnemonic. -/
theorem opcodeMapRowsAreTheCommands : Obligations.OpcodeMapRowsAreTheCommands := by
  intro w
  refine ⟨fun r hr => (selects_iff_decodes hr).1, fun hnone => ?_, fun r hr r' hr' hsel hsel' => ?_⟩
  · rw [decodeWord_error_iff]
    rintro ⟨i, hi⟩
    obtain ⟨r, hr, hname⟩ : ∃ r ∈ opcodeTable, r.mnemonic = i.mnemonic := by
      cases i <;> simp [opcodeTable, Instr.mnemonic]
    exact hnone r hr ((selects_iff_decodes hr).2 ⟨i, hi, hname.symm⟩)
  · obtain ⟨i, hi, hname⟩ := (selects_iff_decodes hr).1 hsel
    obtain ⟨i', hi', hname'⟩ := (selects_iff_decodes hr').1 hsel'
    have hsame : i = i' := Except.ok.inj (hi.symm.trans hi')
    have hinj : ∀ r ∈ opcodeTable, ∀ r' ∈ opcodeTable, r.mnemonic = r'.mnemonic → r = r' := by decide
    exact hinj r hr r' hr' (by rw [← hname, ← hname', hsame])

end Sys2Proof
end

section
/-! SUPPORT. What the assembler writes, and rejects (R70, R71); and WAIT (R72). -/

namespace Sys2Proof.Machine

/-! ### Words of commands (R64, R70) -/

theorem cmdWord_ofNat (op : BitVec 4) {y x : Nat} (hy : y < 64) (hx : x < 256) :
    cmdWord op (BitVec.ofNat 6 y) (BitVec.ofNat 8 x) = BitVec.ofNat 32 (x * 65536 + y * 256 + op.toNat) := by
  have hop : op.toNat < 16 := op.isLt
  rw [word_eq_iff_fields]
  simp only [opField_cmdWord, rsv0Field_cmdWord, levelField_cmdWord, rsv1Field_cmdWord, indexField_cmdWord, rsv2Field_cmdWord]
  simp only [opField, rsv0Field, levelField, rsv1Field, indexField, rsv2Field, ← BitVec.toNat_inj,
    BitVec.extractLsb'_toNat, BitVec.toNat_ofNat, Nat.shiftRight_eq_div_pow]
  omega

/-- The word of a command whose operands are these numbers (R64, R65). -/
theorem encode_ofNat {i : Instr} {y x : Nat} (hy : y < 64) (hx : x < 256) (hlvl : i.level = BitVec.ofNat 6 y)
    (hidx : i.index = BitVec.ofNat 8 x) : encode i = BitVec.ofNat 32 (x * 65536 + y * 256 + i.op.toNat) := by
  rw [encode, hlvl, hidx, cmdWord_ofNat i.op hy hx]

/-- A well-formed command statement is one write of its command's word to CMD. -/
theorem assemble_command {st : Stmt} {i : Instr} (hwf : st.wf = true) (hexpand : expand st = [commandOp i]) :
    assemble st = some [.write (.word 0x8004#32) 4 (.word (encode i))] := by
  rw [assemble, if_pos hwf, hexpand]
  rfl

theorem assemble_rejected {st : Stmt} (h : st.wf = false) : assemble st = none := by simp [assemble, h]

/-! ### Names (R71) -/

/-- A name may be used after the read that binds it. -/
theorem assembleProgram_read_then_use {a b : Nat} (ha : a < 65536) (hb : b < 65536) (id : Ident) :
    assembleProgram [.rd32 (.num a) (some id), .wr32 (.num b) (.name id)] =
      some [.read (.word (BitVec.ofNat 32 a)) 4 (some (.ident id)), .write (.word (BitVec.ofNat 32 b)) 4 (.name id)] := by
  have hread : addrOk a = true := decide_eq_true ha
  have hwrite : addrOk b = true := decide_eq_true hb
  have hwf : programWf [] [.rd32 (.num a) (some id), .wr32 (.num b) (.name id)] = true := by
    simp [programWf, Stmt.wf, Stmt.uses, Stmt.binds, Arg.ok, Arg.uses, hread, hwrite]
  rw [assembleProgram, if_pos hwf]
  rfl

/-- A program whose first statement uses a name is rejected: nothing has bound it (log 23). -/
theorem assembleProgram_use_first {st : Stmt} {id : Ident} (huse : id ∈ st.uses) (rest : List Stmt) :
    assembleProgram (st :: rest) = none := by
  have hunbound : st.uses.all [].contains = false := List.all_eq_false.2 ⟨id, huse, by simp⟩
  simp [assembleProgram, programWf, hunbound]

/-- Settles O5: a command's word is made of its operands, each in its field's range; the statements of a program are checked
in their order. -/
theorem assemblerWords : Obligations.AssemblerWords := by
  refine ⟨by decide, by decide, by decide, fun x hx => ?_, fun y hy => ?_, fun y x hy hx => ?_, fun x hx => ?_,
    fun y hy => ?_, fun a b id ha hb => ?_⟩
  · have hwf : (Stmt.dist x).wf = true := decide_eq_true hx
    rw [assemble_command hwf rfl, encode_ofNat (y := 0) (by decide) hx rfl rfl]
    simp [Instr.op]
  · have hwf : (Stmt.dim y).wf = true := decide_eq_true hy
    rw [assemble_command hwf rfl, encode_ofNat (x := 0) hy (by decide) rfl rfl]
    simp [Instr.op]
  · have hdimp : (Stmt.dimp y x).wf = true := by simp [Stmt.wf, levelOk, indexOk, hy, hx]
    have hquant : (Stmt.quant y x).wf = true := hdimp
    rw [assemble_command hdimp rfl, assemble_command hquant rfl, encode_ofNat hy hx rfl rfl, encode_ofNat hy hx rfl rfl]
    exact ⟨rfl, rfl⟩
  · have hindex : indexOk x = false := decide_eq_false (not_lt.2 hx)
    exact ⟨assemble_rejected hindex, fun y => ⟨assemble_rejected (by simp [Stmt.wf, hindex]),
      assemble_rejected (by simp [Stmt.wf, hindex])⟩⟩
  · have hlevel : levelOk y = false := decide_eq_false (not_lt.2 hy)
    exact ⟨assemble_rejected hlevel, fun x => ⟨assemble_rejected (by simp [Stmt.wf, hlevel]),
      assemble_rejected (by simp [Stmt.wf, hlevel])⟩⟩
  · exact ⟨assembleProgram_read_then_use ha hb id, assembleProgram_use_first (id := id) (by simp [Stmt.uses, Arg.uses]) _⟩

/-! ### WAIT (R72) -/

/-- Settles O9: a scheduled turn of the host with WAIT next. -/
theorem waitPollsUntilNotBusy : Obligations.WaitPollsUntilNotBusy := by
  intro s ops rest hhost hsched hrun
  rw [HostIsNext.step_eq (.inl hsched)]
  exact congrArg _ (hostTurn_wait hrun hhost)

end Sys2Proof.Machine
end

section
/-! SUPPORT. The core's turn, and what the cell turns before a GEN's completion leave for it to write (R76, R103). -/

namespace Sys2Proof.Machine

/-! ### The core's turn (R76) -/

theorem step_core {s : State} {rest : List Turn} (h : s.sched = .core :: rest) :
    step s = coreTurn { s with sched := rest } := by
  simp [step, nextTurn, h, takeTurn]

/-- When the schedule has run out a command in progress completes (log 2). -/
theorem step_core_of_no_schedule {s : State} (hsched : s.sched = []) (hb : s.busy = true) : step s = coreTurn s := by
  simp [step, nextTurn, hsched, hb, takeTurn]

/-- Settles O7: both steps are the core's turn, which runs what is latched. -/
theorem stepRunsTheLatchedCommand : Obligations.StepRunsTheLatchedCommand := by
  intro s i rest hb hf
  exact ⟨fun hsched => (step_core hsched).trans (coreTurn_run hb hf),
    fun hsched => (step_core_of_no_schedule hsched hb).trans (coreTurn_run hb hf)⟩

theorem coreTurn_of_generating {s : State} (hs : Inv s) (hgen : generating s = true) : coreTurn s = exec .gen s := by
  have hb := busy_of_generating hgen
  obtain ⟨i, hf⟩ := hs.latched hb
  obtain rfl := (generating_iff_gen hb hf).1 hgen
  exact coreTurn_run hb hf

/-! ### The order of GEN's cells (R103) -/

/-- A fresh cell written before the completion, or by it, makes the same table. -/
theorem writeCells_genTodo_insertRising {m : Memory} (hm : Memory.wf m = true) (P : Palette) {written : List Nat} {y : Level}
    {x : Index} (hfresh : cellAddr y x ∉ written) :
    writeCells P (genTodo (insertRising (cellAddr y x) written)) (Memory.write m (cellAddr y x) (cell P y x)) =
      writeCells P (genTodo written) m := by
  refine Memory.ext_of_read (writeCells_wf (Memory.wf_write hm _ _) P _) (writeCells_wf hm P _) fun a => ?_
  by_cases ha : a = cellAddr y x
  · subst ha
    rw [read_cell_genTodo, read_cell_genTodo, if_pos (mem_insertRising.2 (.inl rfl)), if_neg hfresh,
      Memory.read_write_same]
  · have htodo : a ∈ genTodo (insertRising (cellAddr y x) written) ↔ a ∈ genTodo written := by
      simp [mem_genTodo, mem_insertRising, ha]
    simp only [read_writeCells, htodo, Memory.read_write_other m _ ha]

/-- A turn of a cell in a good state with GEN in progress leads to such a state again, whose completion ends as it would have
without the turn. -/
theorem genCell_then_exec_gen {s : State} {P : Palette} (hs : Inv s) (hgen : generating s = true)
    (hP : palette s.mem = some P) (y : Level) (x : Index) :
    ∃ t, genCell y x s = .next t ∧ Inv t ∧ generating t = true ∧ palette t.mem = some P ∧ t.sched = s.sched ∧
      ∀ rest, exec .gen { t with sched := rest } = exec .gen { s with sched := rest } := by
  by_cases hold : cellAddr y x ∈ s.genProgress
  · exact ⟨s, genCell_written hold, hs, hgen, hP, rfl, fun _ => rfl⟩
  · have hvalue := cellOf_of_palette hP y x
    have hpal := (palette_write_cmap s.mem (cell P y x) (cellAddr_lt y x)).trans hP
    refine ⟨_, genCell_fresh hgen hold hvalue, hs.cell hgen hold hvalue, hgen, hpal, rfl, fun rest => ?_⟩
    refine (exec_gen (by exact hpal)).trans (Eq.trans ?_ (exec_gen (by exact hP)).symm)
    simp only [writeCells_genTodo_insertRising hs.memCanonical P hold]

theorem Inv.with_sched {s : State} (hs : Inv s) (rest : List Turn) : Inv { s with sched := rest } :=
  hs.model_fields s.host rest s.names s.draws

theorem run_one (M : Host.Core) (s : M.State) : M.run 1 s = M.step s := by
  simp only [Host.Core.run]
  cases M.step s <;> rfl

/-- The turns of a list of cells, then the core's. -/
def cellsThenCore (cells : List (Level × Index)) : List Turn := cells.map (fun c => .cell c.1 c.2) ++ [.core]

theorem run_cellsThenCore {s : State} {P : Palette} {cells : List (Level × Index)} (hs : Inv s) (hgen : generating s = true)
    (hP : palette s.mem = some P) (hsched : s.sched = cellsThenCore cells) :
    Host.Core.run core (cells.length + 1) s = exec .gen { s with sched := [] } := by
  induction cells generalizing s with
  | nil => exact (run_one core s).trans ((step_core hsched).trans (coreTurn_of_generating (hs.with_sched []) hgen))
  | cons c cells ih =>
    obtain ⟨t, hcell, ht, htgen, htP, htsched, hexec⟩ :=
      genCell_then_exec_gen (hs.with_sched (cellsThenCore cells)) hgen hP c.1 c.2
    have hstep : step s = .next t := (step_cell hsched).trans hcell
    have hrest := ih ht htgen htP htsched
    exact (run_succ (M := core) hstep).trans (hrest.trans (hexec []))

/-- Settles O40: with cell turns before it or without, the run ends as GEN's completion does. -/
theorem genOrderIsUnobservable : Obligations.GenOrderIsUnobservable := by
  intro s cells hs hgen ⟨P, hP⟩
  have hrun (cells : List (Level × Index)) :
      Host.Core.run core (cells.length + 1) { s with sched := cellsThenCore cells } = exec .gen { s with sched := [] } :=
    run_cellsThenCore (hs.with_sched _) hgen hP rfl
  have hend := exec_gen (s := { s with sched := [] }) hP
  exact ⟨_, (hrun cells).trans hend, (run_one core _).symm.trans ((hrun []).trans hend)⟩

end Sys2Proof.Machine
end

section
/-! SUPPORT. Completion is guaranteed: while a command is in progress the palette stays, and each step uses up a turn (R140). -/

namespace Sys2Proof.Machine

theorem TxnEffect.sched_eq {s t : State} {x : Txn} (h : TxnEffect s x t) : t.sched = s.sched := by
  cases h <;> rfl

theorem TurnEffect.sched_eq {s t : State} {turn : Turn} (h : TurnEffect s turn t) : t.sched = s.sched := by
  cases h with
  | host t effect =>
    cases effect with
    | txn x op ops left names t running next txn effect => exact effect.sched_eq
    | nothing | outside => rfl
  | core i t busy latched runs => obtain ⟨P, -, -, rfl⟩ | ⟨-, r, d, rfl⟩ := exec_eq_next runs <;> rfl
  | coreIdle | cell | cellIdle | reset => rfl

/-- A step with turns left uses up the first. -/
theorem step_sched {s t : State} {turn : Turn} {rest : List Turn} (hsched : s.sched = turn :: rest) (h : step s = .next t) :
    t.sched = rest := by
  obtain ⟨left, hleft, effect⟩ := step_effect h
  have hrest : left = rest := by
    simpa [nextTurn, hsched] using (congrArg State.sched hleft).symm
  exact effect.sched_eq.trans hrest

theorem idle_of_step_reset {s t : State} (hreset : IsReset s) (h : step s = .next t) : t.busy = false := by
  obtain ⟨b, hturn⟩ := hreset
  obtain ⟨rest, -, effect⟩ := step_effect h
  rw [hturn] at effect
  cases effect
  rfl

/-- While a command stays in progress no byte of PAL changes (R32, R50). -/
theorem palette_of_step_busy {s t : State} (h : step s = .next t) (hs : s.busy = true) (ht : t.busy = true) :
    palette t.mem = palette s.mem := by
  refine palette_congr fun a hlo hhi => ?_
  by_contra hne
  obtain hreset | ⟨hcmap, -⟩ | ⟨-, hidle, -⟩ := memoryChangesOnlyByItsWriter s t a h hne
  · simp [idle_of_step_reset hreset h] at ht
  · simp only [Config.palBase] at hlo
    omega
  · simp [hidle] at hs

theorem Inv.exists_step {s : State} (hs : Inv s) (hload : PaletteLoaded s) : ∃ t, step s = .next t := by
  obtain ⟨-, -, hnext⟩ := goodStatesStep s hs
  exact hnext hload

/-- Settles O59, by induction on the schedule: a step ends the command or leaves one turn fewer; the last is the core's. -/
theorem completionIsGuaranteed : Obligations.CompletionIsGuaranteed := by
  intro s hs hb hload
  generalize hsched : s.sched = sched
  induction sched generalizing s with
  | nil =>
    obtain ⟨t, ht⟩ := hs.exists_step hload
    obtain ⟨i, hf⟩ := hs.latched hb
    have hexec : exec i s = .next t := by
      rw [← coreTurn_run hb hf, ← step_core_of_no_schedule hsched hb, ht]
    exact ⟨1, t, le_rfl, (run_one core s).trans ht, (exec_busy_done hexec).1⟩
  | cons turn rest ih =>
    obtain ⟨t, ht⟩ := hs.exists_step hload
    cases htb : t.busy with
    | false => exact ⟨1, t, by simp, (run_one core s).trans ht, htb⟩
    | true =>
      have htload : PaletteLoaded t := by
        obtain ⟨P, hP⟩ := hload
        exact ⟨P, (palette_of_step_busy ht hb htb).trans hP⟩
      obtain ⟨k, u, hk, hrun, hu⟩ := ih t (stepKeepsInvariant s t hs ht) htb htload (step_sched hsched ht)
      exact ⟨k + 1, u, Nat.succ_le_succ hk, (run_succ (M := core) ht).trans hrun, hu⟩

end Sys2Proof.Machine
end

section
/-! SUPPORT. The dimmer's channels and packed word (R92, R93), and the completions of the commands other than GEN. -/

namespace Sys2Proof.Machine

/-! ### The dimmer and the search -/

theorem dim1_toNat (v : Byte) (y : Level) :
    (dim1 v y).toNat = min 255 ((v.toNat * (63 - y.toNat) + 16) / 32) := by
  simp only [dim1, clamp, Nat.zero_max, Nat.shiftRight_eq_div_pow, BitVec.toNat_ofNat]
  exact Nat.mod_eq_of_lt (by omega)

theorem dimmedWord_pack_dim (t : Triple) (y : Level) : DimmedWord (pack (dim t y)) t.r t.g t.b y := by
  obtain ⟨hr, hg, hb, htop⟩ := byteOfWord_wordOfBytes (dim t y).r (dim t y).g (dim t y).b 0#8
  exact ⟨(congrArg BitVec.toNat hr).trans (dim1_toNat t.r y), (congrArg BitVec.toNat hg).trans (dim1_toNat t.g y),
    (congrArg BitVec.toNat hb).trans (dim1_toNat t.b y), htop⟩

/-- A search leaves the nearest entry's index in RESULT and its distance in MINDIST (R85). -/
theorem searchEffect_nearestEntry (P : Palette) (t : Triple) (s : State) :
    ∃ i : Index, (searchEffect P t s).result = i.setWidth 32 ∧ NearestEntry P t i (searchEffect P t s).mindist.toNat := by
  obtain ⟨i, hi, hnearest⟩ := nearestEntry_nearest P t
  have hdist : (searchEffect P t s).mindist.toNat = (nearest P t).2 :=
    Nat.mod_eq_of_lt ((nearest_distance_le P t).trans_lt (by decide))
  refine ⟨i, ?_, hdist ▸ hnearest⟩
  rw [searchEffect_result, ← hi, BitVec.ofNat_toNat]

/-! ### Completions -/

/-- A palette entry whose bytes are written, by the addresses of R43. -/
theorem palEntry_of_bytes {m : Memory} {x : Index} {r g b : Byte} (hr : Memory.read m (0x4000 + 3 * x.toNat) = some r)
    (hg : Memory.read m (0x4000 + 3 * x.toNat + 1) = some g) (hb : Memory.read m (0x4000 + 3 * x.toNat + 2) = some b) :
    palEntry m x.toNat = some ⟨r, g, b⟩ :=
  palEntry_eq_some_iff.2 ⟨hr, hg, hb⟩

/-- Settles O29: NOP has no effect beside the completion. -/
theorem nopCompletes : Obligations.NopCompletes := fun _ => complete_eq_next.2 rfl

/-- Settles O30: the squared distance has 18 bits, so RESULT holds it whole. -/
theorem distCompletes : Obligations.DistCompletes := by
  intro s x r g b hr hg hb
  refine ⟨_, withEntry_eq_next.2 ⟨_, palEntry_of_bytes hr hg hb, rfl⟩, rfl, ?_⟩
  have hword : (BitVec.ofNat 32 (sqdist s.lt ⟨r, g, b⟩)).toNat = sqdist s.lt ⟨r, g, b⟩ :=
    Nat.mod_eq_of_lt ((sqdist_le s.lt _).trans_lt (by decide))
  exact (congrArg Nat.cast hword).trans (sqdist_cast s.lt _)

/-- Settles O31: MATCH is the search for LT. -/
theorem matchCompletes : Obligations.MatchCompletes := fun s P hP =>
  ⟨_, withPalette_eq_next.2 ⟨P, hP, rfl⟩, rfl, searchEffect_nearestEntry P s.lt s⟩

/-- Settles O32: RESULT is the packed word of LT dimmed. -/
theorem dimCompletes : Obligations.DimCompletes := fun s y =>
  ⟨_, complete_eq_next.2 rfl, rfl, dimmedWord_pack_dim s.lt y⟩

/-- Settles O33: RESULT is the packed word of the entry dimmed. -/
theorem dimpCompletes : Obligations.DimpCompletes := fun _ y _ r g b hr hg hb =>
  ⟨_, withEntry_eq_next.2 ⟨_, palEntry_of_bytes hr hg hb, rfl⟩, rfl, dimmedWord_pack_dim ⟨r, g, b⟩ y⟩

/-- Settles O34: a fullbright index makes no search, any other is the search for its dimmed entry. -/
theorem quantCompletes : Obligations.QuantCompletes := by
  intro s y x
  refine ⟨fun hx => ?_, fun hx P hP => ?_⟩
  · exact execQuant_fullbright (fullbright_iff.2 hx)
  · refine ⟨_, (execQuant_search (fullbright_eq_false_iff.2 hx)).trans (withPalette_eq_next.2 ⟨P, hP, rfl⟩), rfl, ?_⟩
    obtain ⟨i, hi, hnearest⟩ := searchEffect_nearestEntry P (dim (P.get x) y) s
    exact ⟨i, dim (P.get x) y, hi, dimmedWord_pack_dim (P.get x) y, hnearest⟩

end Sys2Proof.Machine
end

section
/-! SUPPORT. What a command writes is a function of PAL, LT and the command (R77). -/

namespace Sys2Proof.Machine

/-- After the completion of GEN in a good state every cell has its value for the palette, written before or by the
completion. -/
theorem Inv.read_writeCells_genTodo {s : State} {P : Palette} (hs : Inv s) (hP : palette s.mem = some P) {a : Nat}
    (ha : a < Config.cmapBytes) :
    Memory.read (writeCells P (genTodo s.genProgress) s.mem) a = some (Machine.cell P (levelOfCell a) (indexOfCell a)) := by
  obtain ⟨Q, hQ, htable⟩ := hs.tableRight_writeCells hP
  rw [palette_writeCells P s.mem fun a ha => (mem_genTodo.1 ha).1, hP, Option.some.injEq] at hQ
  have hcell := htable (levelOfCell a) (indexOfCell a)
  rwa [← hQ, cellAddr_of_lt ha] at hcell

/-- The table of GEN's completion does not depend on the progress, from good states; where neither run had written a cell it does
not in any. -/
theorem read_writeCells_genTodo_agree {s s' : State} {P : Palette} (hP : palette s.mem = some P)
    (hP' : palette s'.mem = some P) {a : Nat} (ha : a < Config.cmapBytes)
    (h : (a ∉ s.genProgress ∧ a ∉ s'.genProgress) ∨ (Inv s ∧ Inv s')) :
    Memory.read (writeCells P (genTodo s.genProgress) s.mem) a =
      Memory.read (writeCells P (genTodo s'.genProgress) s'.mem) a := by
  obtain ⟨hfresh, hfresh'⟩ | ⟨hs, hs'⟩ := h
  · rw [read_writeCells, read_writeCells, if_pos (mem_genTodo.2 ⟨ha, hfresh⟩), if_pos (mem_genTodo.2 ⟨ha, hfresh'⟩)]
  · rw [hs.read_writeCells_genTodo hP ha, hs'.read_writeCells_genTodo hP' ha]

/-- Settles O39, command by command: each reads LT and the same entries of PAL. -/
theorem resultsAreDetermined : Obligations.ResultsAreDetermined := by
  intro i s s' t hpal hlt h
  have hentry (x : Index) : palEntry s.mem x.toNat = palEntry s'.mem x.toNat :=
    palEntry_congr x.isLt fun a hlo hhi => hpal a ⟨hlo, hhi⟩
  have hpalette : palette s.mem = palette s'.mem := palette_congr fun a hlo hhi => hpal a ⟨hlo, hhi⟩
  cases i with
  | nop =>
    obtain rfl := complete_eq_next.1 h
    exact ⟨_, rfl, by simp⟩
  | dist x =>
    obtain ⟨p, hp, rfl⟩ := withEntry_eq_next.1 h
    exact ⟨_, withEntry_eq_next.2 ⟨p, hentry x ▸ hp, rfl⟩, by simp [hlt]⟩
  | matchTarget =>
    obtain ⟨P, hP, rfl⟩ := withPalette_eq_next.1 h
    exact ⟨_, withPalette_eq_next.2 ⟨P, hpalette ▸ hP, rfl⟩, by simp [hlt]⟩
  | dim y =>
    obtain rfl := complete_eq_next.1 h
    exact ⟨_, rfl, by simp [hlt]⟩
  | dimp y x =>
    obtain ⟨p, hp, rfl⟩ := withEntry_eq_next.1 h
    exact ⟨_, withEntry_eq_next.2 ⟨p, hentry x ▸ hp, rfl⟩, by simp⟩
  | quant y x =>
    cases hx : fullbright x with
    | true =>
      have hhigh : ¬ x.toNat < 224 := not_lt.2 (fullbright_iff.1 hx)
      obtain rfl := complete_eq_next.1 ((execQuant_fullbright hx).symm.trans h)
      exact ⟨_, execQuant_fullbright hx, by simp [hhigh]⟩
    | false =>
      have hlow : x.toNat < 224 := fullbright_eq_false_iff.1 hx
      obtain ⟨P, hP, rfl⟩ := withPalette_eq_next.1 ((execQuant_search hx).symm.trans h)
      exact ⟨_, (execQuant_search hx).trans (withPalette_eq_next.2 ⟨P, hpalette ▸ hP, rfl⟩), by simp [hlow]⟩
  | gen =>
    obtain ⟨P, hP, rfl⟩ := withPalette_eq_next.1 h
    have hP' : palette s'.mem = some P := hpalette ▸ hP
    exact ⟨_, exec_gen hP', by simp, by simp, by simp, by simp,
      fun _ a ha => read_writeCells_genTodo_agree hP hP' ha⟩

end Sys2Proof.Machine
end

section
/-! SUPPORT. The search's answer as its rules word it (R85, R89, R90), and the table that GEN leaves (R100, R106). -/

namespace Sys2Proof.Machine

/-! ### The table after the completion of GEN -/

/-- A completion step runs its command, from the state with at most one turn taken off its schedule. -/
theorem Completes.step_eq {s : State} {i : Instr} (h : Completes s i) : ∃ rest, step s = exec i { s with sched := rest } := by
  obtain ⟨hturn, hb, hf⟩ := h
  obtain ⟨rest, hrest⟩ := nextTurn_state s
  refine ⟨rest, ?_⟩
  rw [step, hturn, hrest]
  exact coreTurn_run hb hf

theorem cell_fullbright {x : Index} (h : fullbright x = true) (P : Palette) (y : Level) : cell P y x = x := by
  simp [cell, h]

/-- A cell outside the fullbright columns is the nearest entry to its column's dimmed entry. -/
theorem cell_nearestEntry {x : Index} (h : fullbright x = false) (P : Palette) (y : Level) :
    NearestEntry P (dim (P.get x) y) (cell P y x) (nearest P (dim (P.get x) y)).2 := by
  obtain ⟨i, hi, hnearest⟩ := nearestEntry_nearest P (dim (P.get x) y)
  have hcell : cell P y x = i := by simp [cell, h, ← hi]
  rwa [hcell]

/-- Settles O36: the cells of the run's progress are right by the invariant, the completion writes the others. -/
theorem genLeavesTheWholeTable : Obligations.GenLeavesTheWholeTable := by
  intro s P hs hcompletes hP
  obtain ⟨rest, hstep⟩ := hcompletes.step_eq
  refine ⟨_, hstep.trans (exec_gen hP), ?_, fun y x => ⟨cell P y x, ?_, fun hx => ?_, fun hx => ?_⟩⟩
  · exact (palette_writeCells P s.mem fun a ha => (mem_genTodo.1 ha).1).trans hP
  · have hread := hs.read_writeCells_genTodo hP (cellAddr_lt y x)
    rwa [levelOfCell_cellAddr, indexOfCell_cellAddr] at hread
  · exact cell_fullbright (fullbright_iff.2 hx) P y
  · exact ⟨dim (P.get x) y, _, dimmedWord_pack_dim (P.get x) y, cell_nearestEntry (fullbright_eq_false_iff.2 hx) P y⟩

/-! ### What the search returns -/

/-- The nearest entry's index is the least of those at its distance. -/
theorem NearestEntry.isLeast_index {P : Palette} {t : Triple} {i : Index} {d : Nat} (h : NearestEntry P t i d) :
    IsLeast { n : Nat | ∃ j : Index, j.toNat = n ∧ sqdist t (P.get j) = d } i.toNat := by
  obtain ⟨hdist, -, hfirst⟩ := h
  constructor
  · exact ⟨i, rfl, hdist⟩
  · rintro _ ⟨j, rfl, hj⟩
    exact not_lt.1 fun hlt => (hfirst j hlt).ne' hj

/-- Settles O42: both clauses hold of the entry that the search returns. -/
theorem searchFindsTheFirstNearest : Obligations.SearchFindsTheFirstNearest := by
  intro P t
  obtain ⟨i, hi, hnearest⟩ := nearestEntry_nearest P t
  refine ⟨?_, hi ▸ hnearest.isLeast_index⟩
  obtain ⟨hdist, hleast, -⟩ := hnearest
  constructor
  · exact ⟨i, hdist.symm⟩
  · rintro _ ⟨j, rfl⟩
    exact hleast j

theorem laneSq_eq_zero_iff {t p : Byte} : laneSq t p = 0 ↔ t = p := by
  rw [← Nat.cast_eq_zero (R := Int), laneSq_cast, sq_eq_zero_iff, sub_eq_zero, Nat.cast_inj, BitVec.toNat_inj]

/-- Only a triple itself is at distance 0 from it. -/
theorem sqdist_eq_zero_iff {t p : Triple} : sqdist t p = 0 ↔ t = p := by
  cases t
  cases p
  simp [sqdist, laneSq_eq_zero_iff, and_assoc]

/-- Settles O44: the entry itself is at distance 0, so the entries at the least distance are those equal to it. -/
theorem selfMatch : Obligations.SelfMatch := by
  intro P i
  obtain ⟨hdist, hindex⟩ := searchFindsTheFirstNearest P (P.get i)
  have hzero : (nearest P (P.get i)).2 = 0 := Nat.le_zero.1 (hdist.2 ⟨i, (sqdist_eq_zero_iff.2 rfl).symm⟩)
  simp only [hzero, sqdist_eq_zero_iff, eq_comm (a := P.get i)] at hindex
  refine ⟨hzero, hindex, fun hdistinct => ?_⟩
  obtain ⟨j, hj, hentry⟩ := hindex.1
  rw [← hj, hdistinct j i hentry]

/-- Settles O45: the index is that of an entry, and the distance that entry's. -/
theorem searchRange : Obligations.SearchRange := by
  intro P t
  obtain ⟨i, hi, -⟩ := nearestEntry_nearest P t
  exact ⟨hi ▸ Nat.le_of_lt_succ i.isLt, nearest_distance_le P t⟩

end Sys2Proof.Machine
end

section
/-! SUPPORT. The dimmer's rounding, its clamp and its monotonicity (R94, R95, R98). -/

namespace Sys2Proof.Machine

/-- The bias of half the divisor is the rounding of halves upwards (R94). -/
theorem floor_div_add_half (n : Nat) : ⌊(n : ℚ) / 32 + 1 / 2⌋ = (((n + 16) / 32 : Nat) : Int) := by
  have hsum : (n : ℚ) / 32 + 1 / 2 = ((n + 16 : Nat) : ℚ) / (32 : Nat) := by
    push_cast
    ring
  rw [hsum, Rat.floor_natCast_div_natCast, Int.natCast_div]

theorem dim1_eq_floor (v : Byte) (y : Level) :
    ((dim1 v y).toNat : Int) = min 255 ⌊((v.toNat : ℚ) * (63 - y.toNat : ℚ)) / 32 + 1 / 2⌋ := by
  have hfactor : (63 - y.toNat : ℚ) = ((63 - y.toNat : Nat) : ℚ) := by
    rw [Nat.cast_sub (Nat.le_of_lt_succ y.isLt), Nat.cast_ofNat]
  rw [hfactor, ← Nat.cast_mul, floor_div_add_half, dim1_toNat, Nat.cast_min, Nat.cast_ofNat]

/-- From level 31 on the factor is at most 32/32, and the rounded product stays a byte (R94). -/
theorem level_le_of_clamped {v : Byte} {y : Level} (h : 255 < (v.toNat * (63 - y.toNat) + 16) / 32) : y.toNat ≤ 30 := by
  by_contra hy
  have hproduct : v.toNat * (63 - y.toNat) ≤ 255 * 32 := Nat.mul_le_mul (Nat.le_of_lt_succ v.isLt) (by omega)
  omega

theorem dim1_eq_of_toNat {v c : Byte} {y : Level} (h : min 255 ((v.toNat * (63 - y.toNat) + 16) / 32) = c.toNat) :
    dim1 v y = c :=
  BitVec.eq_of_toNat_eq ((dim1_toNat v y).trans h)

theorem dim1_eq_255_of_clamped {v : Byte} {y : Level} (h : 255 ≤ (v.toNat * (63 - y.toNat) + 16) / 32) :
    dim1 v y = 255#8 :=
  dim1_eq_of_toNat (min_eq_left h)

/-- A brighter channel at a level no darker is dimmed to no less (R95). -/
theorem dim1_le_dim1 {v v' : Byte} {y y' : Level} (hv : v.toNat ≤ v'.toNat) (hy : y'.toNat ≤ y.toNat) :
    (dim1 v y).toNat ≤ (dim1 v' y').toNat := by
  have hproduct : v.toNat * (63 - y.toNat) ≤ v'.toNat * (63 - y'.toNat) := Nat.mul_le_mul hv (Nat.sub_le_sub_left hy 63)
  rw [dim1_toNat, dim1_toNat]
  omega

theorem dim1_zero (y : Level) : dim1 0#8 y = 0#8 := dim1_eq_of_toNat (by simp)

/-- Level 31 has the factor 32/32 (R94, R98). -/
theorem dim1_level_31 (v : Byte) : dim1 v 31#6 = v := by
  have hfactor : 63 - (31#6 : Level).toNat = 32 := rfl
  refine dim1_eq_of_toNat ?_
  rw [hfactor]
  omega

/-- Level 63 has the factor 0 (R94, R98). -/
theorem dim1_level_63 (v : Byte) : dim1 v 63#6 = 0#8 := dim1_eq_of_toNat (by simp)

/-- Level 62 has the factor 1/32, so the clamp does not act (R98). -/
theorem dim1_level_62_toNat (v : Byte) : (dim1 v 62#6).toNat = (v.toNat + 16) / 32 := by
  have hfactor : 63 - (62#6 : Level).toNat = 1 := rfl
  rw [dim1_toNat, hfactor]
  omega

/-- Settles O46: the bias makes the floor a rounding, and the clamp needs a product of at least 256 · 32 − 16. -/
theorem dimmerScalesAndRounds : Obligations.DimmerScalesAndRounds := by
  refine ⟨fun v y => ⟨dim1_eq_floor v y, fun h => ⟨level_le_of_clamped h, by omega⟩⟩, fun v => ?_, by decide⟩
  omega

/-- Settles O47: both monotonicities are one comparison of products. -/
theorem dimmerIsMonotone : Obligations.DimmerIsMonotone := by
  refine ⟨fun v y y' hy => ?_, fun v v' y hv => ?_, ?_, dim1_zero, fun v y => dim1_eq_255_of_clamped, fun y hy => ?_⟩
  · exact dim1_le_dim1 le_rfl (hy ▸ Nat.le_succ y.toNat)
  · exact dim1_le_dim1 hv le_rfl
  · exact ⟨0#8, 0#6, 1#6, rfl, (dim1_zero 1#6).trans (dim1_zero 0#6).symm⟩
  · have hchannel : (200#8 : Byte).toNat = 200 := rfl
    refine dim1_eq_255_of_clamped ?_
    rw [hchannel]
    omega

/-- Settles O48, level by level. -/
theorem dimmerSpecialLevels : Obligations.DimmerSpecialLevels := by
  refine ⟨fun v => ⟨dim1_level_31 v, dim1_level_63 v, dim1_level_62_toNat v, fun hv => ?_, fun hlo hhi => ?_⟩,
    dim1_zero, by decide⟩
  · have hzero : (v.toNat + 16) / 32 = 0 := by omega
    exact BitVec.eq_of_toNat_eq ((dim1_level_62_toNat v).trans hzero)
  · have hone : (v.toNat + 16) / 32 = 1 := by omega
    exact BitVec.eq_of_toNat_eq ((dim1_level_62_toNat v).trans hone)

end Sys2Proof.Machine
end

section
/-! SUPPORT. The generator's fullbright columns (R101). -/

namespace Sys2Proof.Machine

/-- Settles O49: the generator makes no search for a column from 224 on. -/
theorem fullbrightIdentity : Obligations.FullbrightIdentity := by
  intro P y x hlow _
  exact cell_fullbright (fullbright_iff.2 hlow) P y

end Sys2Proof.Machine
end

section
/-! SUPPORT. The four error bits by their error (R109, R114): what raising and clearing do to them, and to STATUS. -/

namespace Sys2Proof.Machine

/-- The STATUS bit of this error is set (R26). -/
def Err.isSet : Err → State → Bool
  | .ill, s => s.errIll
  | .busy, s => s.errBusy
  | .palwr, s => s.errPalwr
  | .acc, s => s.errAcc

theorem Err.isSet_eq_statusBit (e : Err) (s : State) : e.isSet s = (statusWord s).getLsbD e.code := by
  rw [getLsbD_statusWord]
  cases e <;> simp [isSet, code]

/-- The model's own fields hold no error bit (log 9). -/
theorem Err.isSet_model_fields (e : Err) (s : State) (host : List HostOp) (sched : List Turn) (names : List (Name × Word))
    (replies : List Word) (d : Nat) :
    e.isSet { s with host := host, sched := sched, names := names, replies := replies, draws := d } = e.isSet s := by
  cases e <;> rfl

theorem Err.isSet_raise (e e' : Err) (s : State) : e'.isSet (raise e s) = (e'.isSet s || e == e') := by
  cases e' with
  | ill => exact raise_errIll e s
  | busy => exact raise_errBusy e s
  | palwr => exact raise_errPalwr e s
  | acc => exact raise_errAcc e s

theorem Err.isSet_clearStatus (e : Err) (w : Word) (s : State) :
    e.isSet (clearStatus w s) = (e.isSet s && !w.getLsbD e.code) := by
  cases e <;> rfl

theorem Err.isSet_resetBlock (e : Err) (b : Bool) (s : State) : e.isSet (resetBlock b s) = false := by
  cases e <;> rfl

theorem statusBit_raise (e : Err) (s : State) : (statusWord (raise e s)).getLsbD e.code = true := by
  rw [← Err.isSet_eq_statusBit, Err.isSet_raise]
  simp

theorem flagAt_or (b c : Bool) (k : Nat) : flagAt (b || c) k = flagAt b k ||| flagAt c k := by
  cases b <;> cases c <;> simp [flagAt]

theorem statusWord_raise (e : Err) (s : State) : statusWord (raise e s) = statusWord s ||| 1#32 <<< e.code := by
  have hbit : 1#32 <<< e.code =
      flagAt (e == .ill) Err.ill.code ||| flagAt (e == .busy) Err.busy.code |||
        flagAt (e == .palwr) Err.palwr.code ||| flagAt (e == .acc) Err.acc.code := by
    cases e <;> decide
  simp only [statusWord, hbit, raise_busy, raise_done, raise_cmapValid, raise_errIll, raise_errBusy, raise_errPalwr,
    raise_errAcc, flagAt_or]
  ac_rfl

theorem raise_frame (e : Err) (s : State) :
    raise e s = { s with
      errIll := (raise e s).errIll, errBusy := (raise e s).errBusy
      errPalwr := (raise e s).errPalwr, errAcc := (raise e s).errAcc } := by
  cases e <;> rfl

theorem raise_raise (e : Err) (s : State) : raise e (raise e s) = raise e s := by
  cases e <;> rfl

/-- Settles O26: in STATUS, raising is an OR with the error's bit. -/
theorem raiseSetsOnlyItsBit : Obligations.RaiseSetsOnlyItsBit := fun e s =>
  ⟨statusWord_raise e s, raise_frame e s, raise_raise e s⟩

end Sys2Proof.Machine
end

section
/-! SUPPORT. The transactions that are dropped with an error, and the interrupt line (R110-R112, R116). -/

namespace Sys2Proof.Machine

theorem issue_busy {s : State} (hb : s.busy = true) (w : Word) : issue w s = raise .busy s := by simp [issue, hb]

theorem issue_illegal {s : State} {w : Word} {e : Reject} (hb : s.busy = false) (hw : decodeWord w = .error e) :
    issue w s = raise .ill s := by simp [issue, hb, hw]

theorem hostWrite_pal_busy {s : State} {a : Addr} {n : Nat} (hl : LegalAccess a n) (hpal : InPal a.toNat)
    (hb : s.busy = true) (v : Word) : hostWrite a n v s = raise .palwr s := by
  simp [hostWrite, placeOf_pal_iff.2 ⟨rfl, hl.size, hpal⟩, palWrite, hb]

/-- Settles O11: the write raises ERR_BUSY. -/
theorem commandWhileBusyIsDropped : Obligations.CommandWhileBusyIsDropped := by
  intro s w hb
  rw [hostWrite_cmd, issue_busy hb]
  exact ⟨rfl, statusBit_raise .busy s⟩

/-- Settles O12: the write raises ERR_ILL. -/
theorem illegalCommandIsDropped : Obligations.IllegalCommandIsDropped := by
  intro s w e hb hw
  rw [hostWrite_cmd, issue_illegal hb hw]
  exact ⟨rfl, statusBit_raise .ill s⟩

/-- Settles O15: the write raises ERR_PALWR. -/
theorem paletteWriteWhileBusyIsRefused : Obligations.PaletteWriteWhileBusyIsRefused := by
  intro s a n v hl hpal hb
  rw [hostWrite_pal_busy hl hpal hb]
  exact ⟨rfl, statusBit_raise .palwr s⟩

theorem irq_eq_true_iff {s : State} :
    irq s = true ↔
      (s.doneIe = true ∧ s.done = true) ∨
      (s.errIe = true ∧ (s.errIll = true ∨ s.errBusy = true ∨ s.errPalwr = true ∨ s.errAcc = true)) := by
  simp [irq, anyError, or_assoc]

/-- The line is 0 while neither source is both pending and enabled. -/
theorem irq_eq_false {s : State} (hdone : s.doneIe = false ∨ s.done = false) (herr : s.errIe = false ∨ anyError s = false) :
    irq s = false := by
  simpa [irq, imp_iff_not_or] using And.intro hdone herr

/-- Settles O28: writing ones to STATUS clears both sources, and writing 0 to IRQ_EN disables both. -/
theorem interruptLine : Obligations.InterruptLine := by
  intro s
  rw [hostWrite_status, hostWrite_irqEn]
  refine ⟨irq_eq_true_iff, irq_eq_false (.inr ?_) (.inr ?_), irq_eq_false (.inl rfl) (.inl rfl), rfl,
    irq_eq_false (.inl rfl) (.inl rfl)⟩
  · simp
  · simp [anyError]

end Sys2Proof.Machine
end

section
/-! SUPPORT. Everything a transaction, and a step, can do to the error bits (R109-R113, R117, R119). -/

namespace Sys2Proof.Machine

/-- The transactions that raise each error, given BUSY (R110-R113). -/
inductive RaisedBy (busy : Bool) : Err → Txn → Prop where
  | illegal (w : Word) (r : Reject) (idle : busy = false) (illegal : decodeWord w = .error r) :
      RaisedBy busy .ill (.write 0x8004#16 4 w)
  | cmdBusy (w : Word) (inProgress : busy = true) : RaisedBy busy .busy (.write 0x8004#16 4 w)
  | palBusy (a : Addr) (n : Nat) (v : Word) (inProgress : busy = true) (legal : LegalAccess a n) (pal : InPal a.toNat) :
      RaisedBy busy .palwr (.write a n v)
  | badRead (a : Addr) (n : Nat) (bad : ¬ LegalAccess a n) : RaisedBy busy .acc (.read a n)
  | badWrite (a : Addr) (n : Nat) (v : Word)
      (bad : ¬ LegalAccess a n ∨ a.toNat < 0x4000 ∨ a = 0x8000#16 ∨ a = 0x8014#16 ∨ a = 0x8018#16) :
      RaisedBy busy .acc (.write a n v)

/-- Everything a transaction can do to the error bits, from the state before to the state after. -/
inductive ErrorsEffect (s : State) (x : Txn) (t : State) : Prop where
  /-- One error is raised. -/
  | raised (e : Err) (cause : RaisedBy s.busy e x) (bits : ∀ e' : Err, e'.isSet t = (e'.isSet s || e == e'))
  /-- A write to STATUS clears the bits that are 1 in its word. -/
  | cleared (w : Word) (write : x = .write 0x8008#16 4 w) (bits : ∀ e : Err, e.isSet t = (e.isSet s && !w.getLsbD e.code))
  /-- All stay as they were. -/
  | kept (bits : ∀ e : Err, e.isSet t = e.isSet s)

theorem TxnEffect.errors {s t : State} {x : Txn} (h : TxnEffect s x t) : ErrorsEffect s x t := by
  cases h with
  | badRead a n bad =>
    refine .raised .acc (.badRead a n bad) fun e => ?_
    exact (e.isSet_model_fields (raise .acc s) s.host s.sched s.names _ s.draws).trans (Err.isSet_raise .acc e s)
  | badWrite a n v bad => exact .raised .acc (.badWrite a n v bad) (Err.isSet_raise .acc · s)
  | palRefused a n v legal pal busy => exact .raised .palwr (.palBusy a n v busy legal pal) (Err.isSet_raise .palwr · s)
  | cmdBusy w busy => exact .raised .busy (.cmdBusy w busy) (Err.isSet_raise .busy · s)
  | cmdIllegal w r idle illegal => exact .raised .ill (.illegal w r idle illegal) (Err.isSet_raise .ill · s)
  | cleared w => exact .cleared w rfl (Err.isSet_clearStatus · w s)
  | read | palWritten | accepted | enabled | targeted => exact .kept fun e => by cases e <;> rfl

/-! ### One transaction (R117) -/

/-- What an error's bit adds to the number of error bits that differ. -/
def Err.changes (e : Err) (s t : State) : Nat := if e.isSet t = e.isSet s then 0 else 1

/-- How many error bits differ between the two states. -/
def errorChanges (s t : State) : Nat :=
  Err.ill.changes s t + Err.busy.changes s t + Err.palwr.changes s t + Err.acc.changes s t

theorem Err.changes_le_one (e : Err) (s t : State) : e.changes s t ≤ 1 := by
  unfold changes
  split <;> omega

theorem errorChanges_le_one_of_others {s t : State} (e : Err) (h : ∀ e', e ≠ e' → e'.isSet t = e'.isSet s) :
    errorChanges s t ≤ 1 := by
  have hothers : ∀ e', e ≠ e' → e'.changes s t = 0 := fun e' he' => if_pos (h e' he')
  have hone := e.changes_le_one s t
  cases e <;> simpa [errorChanges, hothers] using hone

theorem ErrorsEffect.changes_le_one {s t : State} {x : Txn} (h : ErrorsEffect s x t) :
    errorChanges s t ≤ 1 ∨ ∃ w, x = .write 0x8008#16 4 w := by
  cases h with
  | raised e cause bits => exact .inl (errorChanges_le_one_of_others e fun e' he' => by simp [bits, he'])
  | cleared w write bits => exact .inr ⟨w, write⟩
  | kept bits => exact .inl (errorChanges_le_one_of_others .acc fun e' _ => bits e')

/-- Settles O25: a transaction raises one error or none; an access is checked before BUSY, and BUSY before the word. -/
theorem atMostOneErrorPerTransaction : Obligations.AtMostOneErrorPerTransaction := by
  intro s x
  refine ⟨(hostTxn_effect x s).errors.changes_le_one, fun a n w hbad => ?_, fun hb w => ?_⟩
  · exact (badAccessOnlyRaisesErrAcc s a n hbad).2 w
  · exact (commandWhileBusyIsDropped s w hb).1

/-! ### One step (R119) -/

theorem ErrorsEffect.change {s t : State} {x : Txn} {e : Err} (h : ErrorsEffect s x t) (hne : e.isSet t ≠ e.isSet s) :
    e.isSet t = true ∧ RaisedBy s.busy e x ∨
      e.isSet t = false ∧ ∃ w, x = .write 0x8008#16 4 w ∧ w.getLsbD e.code = true := by
  cases h with
  | raised e' cause bits =>
    obtain rfl : e' = e := by
      by_contra he
      exact hne (by simp [bits, he])
    exact .inl ⟨by simp [bits], cause⟩
  | cleared w write bits =>
    have hbit : w.getLsbD e.code = true := by
      by_contra hbit
      exact hne (by simp [bits, hbit])
    exact .inr ⟨by simp [bits, hbit], w, write, hbit⟩
  | kept bits => exact absurd (bits e) hne

theorem exec_errors {i : Instr} {s t : State} (h : exec i s = .next t) (e : Err) : e.isSet t = e.isSet s := by
  obtain ⟨P, -, -, rfl⟩ | ⟨-, r, d, rfl⟩ := exec_eq_next h <;> cases e <;> rfl

theorem StepEffect.error_change {s t : State} {e : Err} (h : StepEffect s t) (hne : e.isSet t ≠ e.isSet s) :
    e.isSet t = true ∧ (∃ x, Performs s x ∧ RaisedBy s.busy e x) ∨
      e.isSet t = false ∧ (IsReset s ∨ ∃ w, Performs s (.write 0x8008#16 4 w) ∧ w.getLsbD e.code = true) := by
  cases h with
  | quiet rest left names d => exact absurd (e.isSet_model_fields s left rest names s.replies d) hne
  | cell => exact absurd (by cases e <;> rfl) hne
  | txn rest x left names t performs effect =>
    rw [e.isSet_model_fields t left t.sched names t.replies t.draws] at hne ⊢
    rw [← e.isSet_model_fields s s.host rest s.names s.replies s.draws] at hne
    obtain ⟨hset, hcause⟩ | ⟨hclear, w, rfl, hw⟩ := effect.errors.change hne
    · exact .inl ⟨hset, x, performs, hcause⟩
    · exact .inr ⟨hclear, .inr ⟨w, performs, hw⟩⟩
  | completion rest i t completes runs =>
    exact absurd ((exec_errors runs e).trans (e.isSet_model_fields s s.host rest s.names s.replies s.draws)) hne
  | reset rest b turn => exact .inr ⟨e.isSet_resetBlock b _, .inl ⟨b, turn⟩⟩

theorem StepEffect.error_set {s t : State} (h : StepEffect s t) (e : Err) (h0 : e.isSet s = false) (h1 : e.isSet t = true) :
    ∃ x, Performs s x ∧ RaisedBy s.busy e x := by
  simpa [h0, h1] using h.error_change (e := e)

theorem StepEffect.error_cleared {s t : State} (h : StepEffect s t) (e : Err) (h1 : e.isSet s = true)
    (h0 : e.isSet t = false) :
    IsReset s ∨ ∃ w, Performs s (.write 0x8008#16 4 w) ∧ w.getLsbD e.code = true := by
  simpa [h0, h1] using h.error_change (e := e)

/-- Settles O27: a bit that was set has its cause in `RaisedBy`; what clears a bit is the same for all four. -/
theorem errorBitsHaveTheirCausesAndStick : Obligations.ErrorBitsHaveTheirCausesAndStick := by
  intro s t h
  have hstep := stepEffect_of_step h
  refine ⟨fun h0 h1 => ?_, fun h0 h1 => ?_, fun h0 h1 => ?_, fun h0 h1 => ?_,
    hstep.error_cleared .ill, hstep.error_cleared .busy, hstep.error_cleared .palwr, hstep.error_cleared .acc⟩
  · obtain ⟨x, hperforms, hcause⟩ := hstep.error_set .ill h0 h1
    cases hcause with
    | illegal w r idle illegal => exact ⟨idle, w, r, hperforms, illegal⟩
  · obtain ⟨x, hperforms, hcause⟩ := hstep.error_set .busy h0 h1
    cases hcause with
    | cmdBusy w inProgress => exact ⟨inProgress, w, hperforms⟩
  · obtain ⟨x, hperforms, hcause⟩ := hstep.error_set .palwr h0 h1
    cases hcause with
    | palBusy a n v inProgress legal pal => exact ⟨inProgress, a, n, v, hperforms, legal, pal⟩
  · obtain ⟨x, hperforms, hcause⟩ := hstep.error_set .acc h0 h1
    cases hcause with
    | badRead a n bad => exact .inl ⟨a, n, hperforms, bad⟩
    | badWrite a n v bad => exact .inr ⟨a, n, v, hperforms, bad⟩

end Sys2Proof.Machine
end

section
/-! SUPPORT. BUSY and DONE together, as a poll of STATUS sees them (R133). -/

namespace Sys2Proof.Machine

/-- An acceptance clears DONE but sets BUSY; only a write to STATUS clears DONE with nothing in its place. -/
theorem TxnEffect.keeps_busy_or_done {s t : State} {x : Txn} (h : TxnEffect s x t) (hs : s.busy = true ∨ s.done = true) :
    (t.busy = true ∨ t.done = true) ∨ ∃ w, x = .write 0x8008#16 4 w ∧ w.getLsbD 1 = true := by
  cases h with
  | accepted => exact .inl (.inl rfl)
  | cleared w =>
    cases hbit : w.getLsbD 1 with
    | true => exact .inr ⟨w, rfl, hbit⟩
    | false =>
      exact .inl (by simpa only [clearStatus_busy, clearStatus_done, hbit, Bool.not_false, Bool.and_true] using hs)
  | badWrite | palRefused | cmdBusy | cmdIllegal => exact .inl (by simpa using hs)
  | badRead | read | palWritten | enabled | targeted => exact .inl hs

/-- Settles O58: a completion sets DONE as it clears BUSY, and a transaction is as in `TxnEffect.keeps_busy_or_done`. -/
theorem pollCannotMissACompletion : Obligations.PollCannotMissACompletion := by
  intro s t h hs
  cases stepEffect_of_step h with
  | quiet | cell => exact .inl hs
  | txn rest x left names t performs effect =>
    obtain hkept | ⟨w, rfl, hbit⟩ := effect.keeps_busy_or_done hs
    · exact .inl hkept
    · exact .inr (.inr ⟨w, performs, hbit⟩)
  | completion rest i t completes runs => exact .inl (.inr (exec_busy_done runs).2)
  | reset rest b turn => exact .inr (.inl ⟨b, turn⟩)

end Sys2Proof.Machine
end
